-- ==== Sys2Proof/Word.lean ====
section
/-! DEFINITION. The word and block types of the engine (spec/00_scope.md R7, R11). -/

namespace Sys2Proof

/-- A 32-bit unsigned word (R7, R11).  All arithmetic on it is modulo 2^32. -/
abbrev Word := BitVec 32

/-- One octet of a message, of a block or of the fill buffer (R7, R24). -/
abbrev Octet := BitVec 8

/-- Six words: the accumulator f0..f5, the working registers a..f, a digest (R7, R21, R26). -/
abbrev Six := Vector Word 6

/-- A block of 192 octets (R7). -/
abbrev Block := Vector Octet 192

/-- A block after the endian adapter: 48 words (R7, R25). -/
abbrev BlockWords := Vector Word 48

end Sys2Proof
end

