-- ==== Sys2Proof/Config.lean ====
section
/-! DEFINITION. What an implementation fixes and what the spec leaves open: the OPEN tables of R8, the structural
parameters of R9, the platform parameters of R10, and the free values of the model.  An `opaque` constant has no
body, so nothing can be proved of its value: a claim about the machine holds whatever it is. -/

namespace Sys2Proof

/-- A mixer function of five words (R147): total, otherwise unconstrained. -/
abbrev Mixer := Word → Word → Word → Word → Word → Word

/-- The record `ValidusParams` of R8: the algorithm tables whose values no source gives.  The types carry the
spec's constraints: a rotation amount is in 0..31 (R8, R149), each row of PERM is a bijection on 0..47 (R148). -/
structure ValidusParams where
  iv   : Six
  k    : Fin 192 → Word
  r1   : Fin 192 → Fin 32
  r2   : Fin 192 → Fin 32
  perm : Fin 4 → Equiv.Perm (Fin 48)
  mix  : Fin 4 → Mixer
  deriving Inhabited

/-- `P_COMBINE` of R9: how the block word is combined with the mixer output. -/
inductive Combine where
  | add
  | xor
  deriving DecidableEq, Repr, Inhabited

/-- `P_FEEDBACK` of R9: whether the target register's old value enters the new one. -/
inductive Feedback where
  | none
  | addOld
  deriving DecidableEq, Repr, Inhabited

/-- `P_TARGET_ORDER` of R9: the direction of the target register's round-robin. -/
inductive TargetOrder where
  | descending
  | ascending
  deriving DecidableEq, Repr, Inhabited

/-- Everything the step rule R146 reads besides state: the tables of R8 and the structural parameters of R9.
The defaults are the values the spec decides (R9, decision D13). -/
structure EngineParams where
  tables   : ValidusParams
  combine  : Combine := .add
  feedback : Feedback := .none
  order    : TargetOrder := .descending

/-- `MixBitwise` of R147: bit i of every mixer's output depends only on bit i of its five inputs.  The spec calls
it an optional named assumption; no definition of the model uses it. -/
def ValidusParams.MixBitwise (p : ValidusParams) : Prop :=
  ∃ tt : Fin 4 → BitVec 32, ∀ (r : Fin 4) (x1 x2 x3 x4 x5 : Word) (i : Nat), i < 32 →
    (p.mix r x1 x2 x3 x4 x5).getLsbD i =
      (tt r).getLsbD ((x1.getLsbD i).toNat + 2 * (x2.getLsbD i).toNat + 4 * (x3.getLsbD i).toNat +
        8 * (x4.getLsbD i).toNat + 16 * (x5.getLsbD i).toNat)

namespace Config

/-- The true tables `IV`, `K`, `R1`, `R2`, `PERM`, `MIX` (R8, R32): OPEN, constant for the life of the hardware. -/
opaque tables : ValidusParams

/-- The engine's parameters: the OPEN tables with the structure the spec decides (R9: ADD, NONE, DESCENDING). -/
def engine : EngineParams := { tables := tables }

/-- OPEN: `ENGINE_BASE` divided by 64 (R10, R51). -/
opaque engineBaseBlock : Nat

/-- `ENGINE_BASE`, a multiple of 64 chosen by the platform (R10, R51). -/
def engineBase : Nat := 64 * engineBaseBlock

/-- OPEN: `STEP_LATENCY` less one (R10). -/
opaque stepLatencyPred : Nat

/-- `STEP_LATENCY`, at least 1; no rule depends on it (R10, R240). -/
def stepLatency : Nat := stepLatencyPred + 1

/-- Free value (R15, R234): which agent moves when both have a transition and `State.schedule` does not say;
`true` is the engine.  Applied to `State.freeIdx`, a fresh choice each time. -/
opaque engineFirst : Nat → Bool

/-- Free value (R51): what the host reads from an address outside the window, which this engine does not answer.
Applied to `State.freeIdx`, a fresh value each time. -/
opaque foreignRead : Nat → Word

/-- Free value (R88): what a host name that no read has bound yet holds. -/
opaque unboundName : Nat → Word

end Config

end Sys2Proof
end

