-- ==== Sys2Proof/Machine/Bits.lean ====
section
/-! DEFINITION. The bit and byte-order helpers of spec/00_scope.md R12 and R13. -/

namespace Sys2Proof.Machine

/-- `ROL32(x, n)` (R12); an amount outside 0..31 is taken modulo 32. -/
def rol32 (x : Word) (n : Nat) : Word :=
  if n % 32 = 0 then x else (x <<< (n % 32)) ||| (x >>> (32 - n % 32))

/-- `ROR32(x, n)` (R12); an amount outside 0..31 is taken modulo 32. -/
def ror32 (x : Word) (n : Nat) : Word :=
  if n % 32 = 0 then x else (x >>> (n % 32)) ||| (x <<< (32 - n % 32))

/-- Octet `k` of a word, `v[8k+7:8k]` (R11, R59). -/
def octetOf (v : Word) (k : Nat) : Octet := v.extractLsb' (8 * k) 8

/-- `BSWAP32(x)` (R13): the four octets of a word in reverse order. -/
def bswap32 (v : Word) : Word := ((octetOf v 0 ++ octetOf v 1) ++ octetOf v 2) ++ octetOf v 3

/-- `LE32(o0, o1, o2, o3)` (R13): the first octet is the least significant. -/
def le32 (o0 o1 o2 o3 : Octet) : Word :=
  o0.setWidth 32 ||| o1.setWidth 32 <<< 8 ||| o2.setWidth 32 <<< 16 ||| o3.setWidth 32 <<< 24

end Sys2Proof.Machine
end

