-- ==== Sys2Proof/Machine/Compress.lean ====
section
/-! DEFINITION. The compression function: the step rule and its schedule (spec/41_compression.md R140 to R154), over
any parameters (R8, R9). -/

namespace Sys2Proof.Machine

/-- `Target(s)` (R144): the register step s writes, under either order. -/
def target (o : TargetOrder) (s : Nat) : Fin 6 :=
  match o with
  | .descending => Fin.ofNat 6 (6 - s % 6)
  | .ascending => Fin.ofNat 6 s

/-- Source register `x_k` of a step whose target is `t` (R145): `W[(t + k) mod 6]`. -/
def source (w : Six) (t : Fin 6) (k : Nat) : Word := w[(Fin.ofNat 6 (t.val + k)).val]

/-- The round of step s, `s div 48` (R142). -/
def roundOf (s : Fin 192) : Fin 4 := ⟨s.val / 48, by omega⟩

/-- The index of step s within its round, `s mod 48` (R142). -/
def indexOf (s : Fin 192) : Fin 48 := ⟨s.val % 48, by omega⟩

/-- The block word step s reads, `X[PERM[r][j]]` (R146, R148). -/
def blockWord (p : EngineParams) (s : Fin 192) (x : BlockWords) : Word :=
  x[(p.tables.perm (roundOf s) (indexOf s)).val]

/-- The mixer's output at step s, `MIX[r](x1, .., x5)` (R145, R147). -/
def mixerOut (p : EngineParams) (s : Fin 192) (w : Six) : Word :=
  let t := target p.order s.val
  p.tables.mix (roundOf s) (source w t 1) (source w t 2) (source w t 3) (source w t 4) (source w t 5)

/-- `u` before feedback (R146): the block word combined with the mixer's output, as `P_COMBINE` says. -/
def combined (c : Combine) (m bw : Word) : Word :=
  match c with
  | .add => m + bw
  | .xor => m ^^^ bw

/-- `u` after feedback (R146): the old target value enters only under ADD_OLD. -/
def withFeedback (f : Feedback) (u old : Word) : Word :=
  match f with
  | .none => u
  | .addOld => u + old

/-- The new value of the target register at step s (R146). -/
def mixValue (p : EngineParams) (s : Fin 192) (w : Six) (x : BlockWords) : Word :=
  let bw := blockWord p s x
  let u := withFeedback p.feedback (combined p.combine (mixerOut p s w) bw) w[(target p.order s.val).val]
  let v := u + rol32 (bw + p.tables.k s) (p.tables.r1 s).val
  ror32 (v + bw) (p.tables.r2 s).val

/-- One mixing step on the working registers (R146): only the target register changes. -/
def mixBody (p : EngineParams) (s : Fin 192) (w : Six) (x : BlockWords) : Six :=
  w.set (target p.order s.val).val (mixValue p s w x)

/-- The working registers after the first `n` of the 192 mixing steps (R142, R154). -/
def mixSteps (p : EngineParams) (x : BlockWords) : Nat → Six → Six
  | 0, w => w
  | n + 1, w => if h : n < 192 then mixBody p ⟨n, h⟩ (mixSteps p x n w) x else mixSteps p x n w

/-- The feed-forward sum (R150): word by word, each modulo 2^32, no carry between words (R153). -/
def addSix (a w : Six) : Six := Vector.ofFn fun i : Fin 6 => a[i.val] + w[i.val]

/-- `compress(acc, X)` (R154). -/
def compress (p : EngineParams) (acc : Six) (x : BlockWords) : Six := addSix acc (mixSteps p x 192 acc)

end Sys2Proof.Machine
end

