-- ==== Sys2Proof/Machine/State.lean ====
section
/-! DEFINITION. The state of the machine as plain data: everything spec/10_state.md R20 gives the engine, and beside
it the host agent of R15 (its program, its place in it, the names it has bound) and the schedule by which the two
agents take turns.  With it the reasons a step can stop, the reset state (R45, R230) and one update per field. -/

namespace Sys2Proof.Machine

/-- `CPHASE`, 1 bit (R20, R27): whether a compression is in progress. -/
inductive CPhase where
  | idle
  | run
  deriving DecidableEq, Repr

/-- `STATE`, 3 bits (R28).  The encodings 0b101..0b111 are never taken and have no constructor. -/
inductive DState where
  | uninit
  | absorb
  | finData
  | finPad
  | finalized
  deriving DecidableEq, Repr

/-- `ERRCODE`, 4 bits (R201).  The codes 5..15 are never recorded and have no constructor. -/
inductive ErrCode where
  | none
  | illegalCmd
  | busy
  | notInit
  | afterFinal
  deriving DecidableEq, Repr

/-- One bus access of the host: its byte offset from `ENGINE_BASE` (R51, negative below the window) and its width
in octets (R53). -/
structure Access where
  off   : Int
  bytes : Nat
  deriving DecidableEq, Repr

/-- One line of a host program in the notation of R88.  A name is a number, and a label is the number of the line
it stands before. -/
inductive HostOp where
  /-- `wr REG, imm32` -/
  | write (a : Access) (v : Word)
  /-- `rd REG -> name` -/
  | read (a : Access) (name : Nat)
  /-- `bnz name, mask, label` -/
  | bnz (name : Nat) (mask : Word) (target : Nat)
  deriving DecidableEq, Repr

/-- Who takes the next transition (R15), the platform's reset input (R230) among them. -/
inductive Turn where
  | host
  | engine
  | reset
  deriving DecidableEq, Repr

/-- The machine's state.  The fields up to `data` are the engine's (R20); the last six are the model's own: the
host agent (`hostProg`, `hostPc`, `hostNames`), the order of turns fixed in advance (`schedule`), and the index of
the next free value (`freeIdx`). -/
structure State where
  /-- `ACC[0..5]`, the accumulator f0..f5 (R21). -/
  acc : Six
  /-- `BITCNT_LO`, the bit counter's low half (R22). -/
  bitcntLo : Word
  /-- `BITCNT_HI`, the bit counter's high half (R22). -/
  bitcntHi : Word
  /-- `FILLBUF[0..191]`, the fill buffer (R24). -/
  fillbuf : Block
  /-- `FILL`, the number of valid octets in the fill buffer (R24). -/
  fill : BitVec 8
  /-- `X[0..47]`, the block register (R25). -/
  x : BlockWords
  /-- `W[0..5]`, the working registers a..f (R26). -/
  w : Six
  /-- `CPHASE` (R27). -/
  cphase : CPhase
  /-- `STEP` (R27): the next mixing step, or 192 for the feed-forward. -/
  stepNo : BitVec 8
  /-- `STATE` of the digest state machine (R28). -/
  dstate : DState
  /-- `ERR`, the sticky error flag (R30). -/
  err : Bool
  /-- `ERRCODE`, the first error's code (R30, R201). -/
  errcode : ErrCode
  /-- `ERRCMD`, the first error's command word (R30). -/
  errcmd : Word
  /-- `DATA`, the holding register for the octets of the next APPEND (R31). -/
  data : Word
  /-- The host's program (R15, R88). -/
  hostProg : List HostOp
  /-- The number of the host's next line. -/
  hostPc : Nat
  /-- The names the host has bound (R88), strictly rising. -/
  hostNames : List (Nat × Word)
  /-- Who moves in the coming steps; when it is empty the step chooses as R15 leaves it open. -/
  schedule : List Turn
  /-- The index of the next free value. -/
  freeIdx : Nat
  deriving DecidableEq, Repr

/-- Why the machine stops with a fault. -/
inductive Fault where
  /-- Raised by the engine's turn when `CPHASE` is RUN and `STEP` is above 192, where neither MixStep nor
  FeedForward is enabled (R146, R150) and which R27 says is never reached.  Safe: no state that meets `EngineInv`
  raises it. -/
  | sequencerStuck (stepNo : BitVec 8)
  deriving DecidableEq, Repr

/-- Why the model gives a transition no meaning. -/
inductive Refusal where
  /-- Reserved for an arm of `exec` without a meaning; no arm raises it.  Safe. -/
  | notModelled (mnemonic : String)
  /-- Raised by the host's turn at an access to the window that is not an aligned 32-bit access (R53): the host
  has no step there, and what a real bus answers belongs to the platform.  Safe: nothing is claimed of it. -/
  | accessNotAdmitted (off : Int) (bytes : Nat)
  deriving DecidableEq, Repr

/-- What one transition answers. -/
abbrev Result := Host.Outcome State Fault Refusal

/-- The machine right after reset (R45, R230, R231): every field of the engine at R45's value.  The host has no
program yet, nothing is scheduled and no free value has been used. -/
def State.reset : State where
  acc := Vector.replicate 6 0
  bitcntLo := 0
  bitcntHi := 0
  fillbuf := Vector.replicate 192 0
  fill := 0
  x := Vector.replicate 48 0
  w := Vector.replicate 6 0
  cphase := .idle
  stepNo := 0
  dstate := .uninit
  err := false
  errcode := .none
  errcmd := 0
  data := 0
  hostProg := []
  hostPc := 0
  hostNames := []
  schedule := []
  freeIdx := 0

/-- `ACC <- v`. -/
def State.setAcc (s : State) (v : Six) : State := { s with acc := v }

/-- `BITCNT_HI <- hi; BITCNT_LO <- lo`. -/
def State.setBitcnt (s : State) (hi lo : Word) : State := { s with bitcntHi := hi, bitcntLo := lo }

/-- `FILLBUF <- b`. -/
def State.setFillbuf (s : State) (b : Block) : State := { s with fillbuf := b }

/-- `FILL <- n`. -/
def State.setFill (s : State) (n : BitVec 8) : State := { s with fill := n }

/-- `X <- v`. -/
def State.setX (s : State) (v : BlockWords) : State := { s with x := v }

/-- `W <- v`. -/
def State.setW (s : State) (v : Six) : State := { s with w := v }

/-- `CPHASE <- c; STEP <- n`. -/
def State.setSeq (s : State) (c : CPhase) (n : BitVec 8) : State := { s with cphase := c, stepNo := n }

/-- `STATE <- d`. -/
def State.setDState (s : State) (d : DState) : State := { s with dstate := d }

/-- `ERR <- e; ERRCODE <- c; ERRCMD <- v`. -/
def State.setError (s : State) (e : Bool) (c : ErrCode) (v : Word) : State :=
  { s with err := e, errcode := c, errcmd := v }

/-- `DATA <- v`. -/
def State.setData (s : State) (v : Word) : State := { s with data := v }

/-- Gives the host agent a program. -/
def State.setHostProg (s : State) (p : List HostOp) : State := { s with hostProg := p }

/-- Moves the host agent to line `n`. -/
def State.setHostPc (s : State) (n : Nat) : State := { s with hostPc := n }

/-- Replaces the names the host has bound. -/
def State.setHostNames (s : State) (l : List (Nat × Word)) : State := { s with hostNames := l }

/-- Replaces the schedule. -/
def State.setSchedule (s : State) (l : List Turn) : State := { s with schedule := l }

/-- Moves to the free value of index `n`. -/
def State.setFreeIdx (s : State) (n : Nat) : State := { s with freeIdx := n }

end Sys2Proof.Machine
end

