-- ==== Sys2Proof/Machine/Flags.lean ====
section
/-! DEFINITION. The flags and status fields, computed from state when they are read (spec/10_state.md R28, R29, R36,
R37, R42; spec/60_exceptions.md R201). -/

namespace Sys2Proof.Machine

/-- The encoding of `CPHASE`: 1 is RUN (R29, R36). -/
def cphaseBit : CPhase → BitVec 1
  | .idle => 0
  | .run => 1

/-- The encoding of `STATE` (R28). -/
def dstateCode : DState → BitVec 3
  | .uninit => 0b000
  | .absorb => 0b001
  | .finData => 0b010
  | .finPad => 0b011
  | .finalized => 0b100

/-- The encoding of `ERRCODE` (R201). -/
def errCodeBits : ErrCode → BitVec 4
  | .none => 0
  | .illegalCmd => 1
  | .busy => 2
  | .notInit => 3
  | .afterFinal => 4

/-- BUSY (R29): `CPHASE` = RUN. -/
def State.busy (s : State) : Bool := decide (s.cphase = .run)

/-- DIGEST_VALID (R36, R42): `STATE` = FINALIZED. -/
def State.digestValid (s : State) : Bool := decide (s.dstate = .finalized)

/-- The STATUS register, bits 31:24 reserved, STEP in 23:16, FILL in 15:8, 7:6 reserved, ERR, DIGEST_VALID, STATE in
3:1, BUSY (R36, R56). -/
def statusWord (s : State) : Word :=
  0#8 ++ (s.stepNo ++ (s.fill ++ (0#2 ++ (BitVec.ofBool s.err ++ (BitVec.ofBool s.digestValid ++
    (dstateCode s.dstate ++ cphaseBit s.cphase))))))

/-- The ERRINFO register: `ERRCODE` in bits 3:0, the rest 0 (R37). -/
def errInfoWord (s : State) : Word := (errCodeBits s.errcode).setWidth 32

end Sys2Proof.Machine
end

