-- ==== Sys2Proof/Machine/Operands.lean ====
section
/-! DEFINITION. Operand assembly (spec/30_encoding.md R83, spec/20_memory.md R59): the octets of an APPEND. -/

namespace Sys2Proof.Machine

/-- Octet `k` of an APPEND, `DATA[8k+7:8k]` (R59, R83): the first message octet is in the least-significant lane. -/
def operandOctet (s : State) (k : Nat) : Octet := octetOf s.data k

/-- The octets of APPEND n in message order (R60, R83). -/
def operandOctets (s : State) (n : Nat) : List Octet := (List.range n).map (operandOctet s)

end Sys2Proof.Machine
end

