-- ==== Sys2Proof/Machine/Padding.lean ====
section
/-! DEFINITION. The endian adapter and the Merkle–Damgård padding (spec/42_adapter_padding.md R170 to R182). -/

namespace Sys2Proof.Machine

/-- `Adapter(B)` (R170): word j is octets 4j..4j+3, the first least significant.  It has no state and no mode
(R171, R173). -/
def adapter (b : Block) : BlockWords :=
  Vector.ofFn fun j : Fin 48 => le32 b[4 * j.val] b[4 * j.val + 1] b[4 * j.val + 2] b[4 * j.val + 3]

/-- `ZeroFill(B, n)` (R175): octets 0..n-1 of `b`, then zeros, with no marker octet. -/
def zeroFill (b : Block) (n : Nat) : Block :=
  Vector.ofFn fun i : Fin 192 => if i.val < n then b[i.val] else 0

/-- Octet `i` of `PadBlock(hi, lo)` (R176): the marker 0xAA (R180), 183 zeros, then hi and lo big-endian. -/
def padOctet (hi lo : Word) (i : Nat) : Octet :=
  if i = 0 then 0xAA
  else if i < 184 then 0
  else if i < 188 then octetOf hi (187 - i)
  else octetOf lo (191 - i)

/-- `PadBlock(hi, lo)` (R176): the finalization block for the bit count `hi ++ lo`. -/
def padBlock (hi lo : Word) : Block := Vector.ofFn fun i : Fin 192 => padOctet hi lo i.val

end Sys2Proof.Machine
end

