-- ==== Sys2Proof/Machine/Ops.lean ====
section
/-! DEFINITION. The shared operations over the engine's state: recording a command error and clearing it (the
engine's only exception mechanism, spec/60_exceptions.md R203 to R208), starting a compression (R143), the absorption
primitives (R110, R111), the bit counter (R104), the hand-over at the end of a compression (R107) and reset (R230). -/

namespace Sys2Proof.Machine

/-- `raise CmdError(code, v)` (R203, R208): the error is recorded if none is recorded already, and the command does
nothing else.  It vectors nowhere and saves nothing more (R206). -/
def raiseCmdError (code : ErrCode) (v : Word) (s : State) : State :=
  if s.err then s else s.setError true code v

/-- Clears the recorded error (R108): the engine has no other return from an error (R207). -/
def clearCmdError (s : State) : State := s.setError false .none 0

/-- `StartCompress(blk)` (R143): loads X and the working registers, W[i] from ACC[i] (R141), and starts at step 0. -/
def startCompress (blk : BlockWords) (s : State) : State :=
  ((s.setX blk).setW s.acc).setSeq .run 0

/-- `Absorb(o)` (R110): the octet goes to `FILLBUF[FILL]`; the 192nd hands the block to the compression unit in the
same transition (R111, R174). -/
def absorb (o : Octet) (s : State) : State :=
  let t := (s.setFillbuf (s.fillbuf.setIfInBounds s.fill.toNat o)).setFill (s.fill + 1)
  if t.fill = 192 then (startCompress (adapter t.fillbuf) t).setFill 0 else t

/-- Absorbs a list of octets in order. -/
def absorbList : List Octet → State → State
  | [], s => s
  | o :: os, s => absorbList os (absorb o s)

/-- `BitCountAdd(d)` (R104): the carry into the high half is found by comparing the new low half with `d`. -/
def bitCountAdd (d : Word) (s : State) : State :=
  let lo := s.bitcntLo + d
  s.setBitcnt (if lo < d then s.bitcntHi + 1 else s.bitcntHi) lo

/-- Hands the finalization block to the compression unit (R106, R107, R176, R179). -/
def startPadding (s : State) : State :=
  (startCompress (adapter (padBlock s.bitcntHi s.bitcntLo)) s).setDState .finPad

/-- Hands the zero-filled partial data block to the compression unit (R106, R175). -/
def startPartial (s : State) : State :=
  ((startCompress (adapter (zeroFill s.fillbuf s.fill.toNat)) s).setFill 0).setDState .finData

/-- `OnCompressDone()` (R107), run in the feed-forward's transition. -/
def onCompressDone (s : State) : State :=
  match s.dstate with
  | .finData => startPadding s
  | .finPad => s.setDState .finalized
  | .uninit => s
  | .absorb => s
  | .finalized => s

/-- The BUSY check of `ExecuteCommand` (R100, R204): a legal command `v` written while a compression runs is
rejected; otherwise it is accepted and `body` is its effect. -/
def acceptWhenIdle (v : Word) (body : State → State) (s : State) : State :=
  if s.busy then raiseCmdError .busy v s else body s

/-- The STATE checks of APPEND and FINALIZE (R103, R106, R204). -/
def requireMessage (v : Word) (body : State → State) (s : State) : State :=
  match s.dstate with
  | .uninit => raiseCmdError .notInit v s
  | .finalized => raiseCmdError .afterFinal v s
  | .absorb => body s
  | .finData => body s
  | .finPad => body s

/-- The reset input (R230): every piece of the engine's state takes its value of R45, and a compression in progress
is abandoned.  The host agent and the schedule are no part of the engine and stay. -/
def resetEngine (s : State) : State :=
  { State.reset with
    hostProg := s.hostProg, hostPc := s.hostPc, hostNames := s.hostNames,
    schedule := s.schedule, freeIdx := s.freeIdx }

end Sys2Proof.Machine
end

