-- ==== Sys2Proof/Machine/Engine.lean ====
section
/-! DEFINITION. The engine agent's own transitions (spec/41_compression.md R146, R150, R151). -/

namespace Sys2Proof.Machine

/-- `MixStep` at step s (R146): only W[t] and STEP change. -/
def mixStep (p : EngineParams) (n : Fin 192) (s : State) : State :=
  (s.setW (mixBody p n s.w s.x)).setSeq s.cphase (s.stepNo + 1)

/-- `FeedForward` (R150): ACC[i] <- ACC[i] + W[i] for all six words, the unit goes idle, then OnCompressDone. -/
def feedForward (s : State) : State :=
  onCompressDone ((s.setAcc (addSix s.acc s.w)).setSeq .idle 0)

/-- The engine's turn (R151): no transition when idle, else MixStep or FeedForward as STEP says.  A STEP above 192
enables neither (R27). -/
def engineTurn (p : EngineParams) (s : State) : Result :=
  match s.cphase with
  | .idle => .next s
  | .run =>
    if h : s.stepNo.toNat < 192 then .next (mixStep p ⟨s.stepNo.toNat, h⟩ s)
    else if s.stepNo = 192 then .next (feedForward s)
    else .fault (.sequencerStuck s.stepNo)

/-- Goes on with `f` where `r` is a next state. -/
def Result.andThen (r : Result) (f : State → Result) : Result :=
  match r with
  | .next s => f s
  | .fault e => .fault e
  | .refused e => .refused e

/-- `k` engine turns in a row (R140, R240). -/
def engineRun (p : EngineParams) : Nat → State → Result
  | 0, s => .next s
  | k + 1, s => Result.andThen (engineTurn p s) (engineRun p k)

end Sys2Proof.Machine
end

