-- ==== Sys2Proof/Syntax.lean ====
section
/-! DEFINITION. The command set: one constructor per row of spec/opcode_table.json (spec/30_encoding.md R82). -/

namespace Sys2Proof

/-- A command of the engine (R82).  A word that stands for none of these is illegal (R84) and is rejected by the
decoder; it is no `Instr`. -/
inductive Instr where
  /-- OP 0x0 (R101). -/
  | nop
  /-- OP 0x1 (R102). -/
  | init
  /-- OP 0x2 with the 3-bit field NBYTES (R81, R83, R103); well-formed for NBYTES 0..4. -/
  | append (nbytes : BitVec 3)
  /-- OP 0x3 (R106). -/
  | finalize
  /-- OP 0x4 (R108). -/
  | clrerr
  deriving DecidableEq, Repr

end Sys2Proof
end

