-- ==== Sys2Proof/WellFormed.lean ====
section
/-! DEFINITION. Which commands are well-formed (spec/30_encoding.md R82, R84). -/

namespace Sys2Proof

/-- The legal NBYTES of R82: APPEND takes 0..4, and the fields of R82 leave no choice in any other command. -/
def Instr.wellFormed : Instr → Bool
  | .nop => true
  | .init => true
  | .append n => decide (n.toNat ≤ 4)
  | .finalize => true
  | .clrerr => true

end Sys2Proof
end

