-- ==== Sys2Proof/Decode.lean ====
section
/-! DEFINITION. The decoder of a command word (spec/30_encoding.md R81 to R86), total on every 32-bit word and
rejecting by name, and after it the encoder written from the same field table. -/

namespace Sys2Proof

/-- Why a command word is illegal: the four conditions of R84. -/
inductive Illegal where
  /-- RSV, bits 31:7, is not 0. -/
  | reservedBits
  /-- OP is in 0x5..0xF. -/
  | reservedOp (op : BitVec 4)
  /-- NBYTES is not 0 although OP is not APPEND. -/
  | nbytesNotZero (op : BitVec 4) (nbytes : BitVec 3)
  /-- OP is APPEND and NBYTES is 5, 6 or 7. -/
  | nbytesTooLarge (nbytes : BitVec 3)
  deriving DecidableEq, Repr

/-- Field OP, bits 3:0 (R81). -/
def opField (v : Word) : BitVec 4 := v.extractLsb' 0 4

/-- Field NBYTES, bits 6:4 (R81). -/
def nbytesField (v : Word) : BitVec 3 := v.extractLsb' 4 3

/-- Field RSV, bits 31:7 (R81). -/
def rsvField (v : Word) : BitVec 25 := v.extractLsb' 7 25

/-- `Decode(v)` of R86, its tests in R86's order.  It rejects exactly the words R86 calls ILLEGAL. -/
def decode (v : Word) : Except Illegal Instr :=
  if rsvField v ≠ 0#25 then .error .reservedBits
  else if opField v = 0x2#4 then
    if (nbytesField v).toNat ≤ 4 then .ok (.append (nbytesField v))
    else .error (.nbytesTooLarge (nbytesField v))
  else if nbytesField v ≠ 0#3 then .error (.nbytesNotZero (opField v) (nbytesField v))
  else if opField v = 0x0#4 then .ok .nop
  else if opField v = 0x1#4 then .ok .init
  else if opField v = 0x3#4 then .ok .finalize
  else if opField v = 0x4#4 then .ok .clrerr
  else .error (.reservedOp (opField v))

/-- A command word from its three fields (R81): RSV in 31:7, NBYTES in 6:4, OP in 3:0. -/
def commandWord (rsv : BitVec 25) (nbytes : BitVec 3) (op : BitVec 4) : Word :=
  (rsv ++ nbytes) ++ op

/-- The command word of an instruction (R82, R89).  For an ill-formed APPEND it is the illegal word that carries
the same NBYTES. -/
def encode : Instr → Word
  | .nop => commandWord 0 0 0x0
  | .init => commandWord 0 0 0x1
  | .append n => commandWord 0 n 0x2
  | .finalize => commandWord 0 0 0x3
  | .clrerr => commandWord 0 0 0x4

/-- The word of a table row: `w` is the row's bits as the table numbers them, and every bit from `nbits` up is 0.
A command is one 32-bit word (R80), written whole to CMD, so no byte order enters (R58). -/
def tableWord (nbits w : Nat) : Word := BitVec.ofNat 32 (w % 2 ^ nbits)

/-- What the decoder reads from an instruction whose bits are `w`, numbered as spec/opcode_table.json does. -/
def decodeTableWord (nbits w : Nat) : Option Instr :=
  match decode (tableWord nbits w) with
  | .ok i => some i
  | .error _ => none

end Sys2Proof
end

