-- ==== Sys2Proof/Machine/Commands.lean ====
section
/-! DEFINITION. The meaning of each command (spec/40_commands.md R101 to R108).  The checks come in the order of
spec/60_exceptions.md R204.  A rejected command takes the command error, which is a next state (R203); no command
ever stops the machine (R200). -/

namespace Sys2Proof.Machine

/-- NOP (R101). -/
def execNop (s : State) : Host.Outcome State Fault Refusal :=
  .next (acceptWhenIdle (encode .nop) id s)

/-- `ExecInit` (R102): ACC <- IV, the counter and FILL <- 0, STATE <- ABSORB.  FILLBUF, DATA and the error registers
stay (D10, D29). -/
def initEffect (s : State) : State :=
  (((s.setAcc Config.engine.tables.iv).setBitcnt 0 0).setFill 0).setDState .absorb

/-- INIT (R102). -/
def execInit (s : State) : Host.Outcome State Fault Refusal :=
  .next (acceptWhenIdle (encode .init) initEffect s)

/-- The effect of an accepted APPEND of `n` ≥ 1 octets (R103): the octets in order, then the counter. -/
def appendEffect (n : Nat) (s : State) : State :=
  bitCountAdd (BitVec.ofNat 32 (8 * n)) (absorbList (operandOctets s n) s)

/-- APPEND n (R103, R105).  NBYTES 5..7 is no legal APPEND: it takes ILLEGAL_CMD (R84, R202), before BUSY (R204). -/
def execAppend (nbytes : BitVec 3) (s : State) : Host.Outcome State Fault Refusal :=
  .next <|
    if nbytes.toNat ≤ 4 then
      acceptWhenIdle (encode (.append nbytes))
        (fun s => if nbytes.toNat = 0 then s
          else requireMessage (encode (.append nbytes)) (appendEffect nbytes.toNat) s) s
    else raiseCmdError .illegalCmd (encode (.append nbytes)) s

/-- The effect of an accepted FINALIZE (R106): the zero-filled partial block if octets are buffered, else the
finalization block at once (D5). -/
def finalizeEffect (s : State) : State :=
  if s.fill = 0 then startPadding s else startPartial s

/-- FINALIZE (R106). -/
def execFinalize (s : State) : Host.Outcome State Fault Refusal :=
  .next (acceptWhenIdle (encode .finalize) (requireMessage (encode .finalize) finalizeEffect) s)

/-- CLRERR (R108). -/
def execClrerr (s : State) : Host.Outcome State Fault Refusal :=
  .next (acceptWhenIdle (encode .clrerr) clearCmdError s)

end Sys2Proof.Machine
end

