-- ==== Sys2Proof/Machine/Dispatch.lean ====
section
/-! DEFINITION. Which meaning each command has: one arm per constructor. -/

namespace Sys2Proof.Machine

def exec (i : Instr) (s : State) : Host.Outcome State Fault Refusal :=
  match i with
  | .nop => Sys2Proof.Machine.execNop s
  | .init => Sys2Proof.Machine.execInit s
  | .append nbytes => Sys2Proof.Machine.execAppend nbytes s
  | .finalize => Sys2Proof.Machine.execFinalize s
  | .clrerr => Sys2Proof.Machine.execClrerr s

end Sys2Proof.Machine
end

