-- ==== Sys2Proof/Machine/Window.lean ====
section
/-! DEFINITION. The register window the host sees (spec/10_state.md R33 to R41, spec/20_memory.md R50 to R58): which
accesses reach it, which register an offset names, and what a read returns.  Writes stand in HostAgent.lean, because
a write to CMD runs a command. -/

namespace Sys2Proof.Machine

/-- The registers of the window (R33). -/
inductive Reg where
  | cmd
  | data
  | status
  | errinfo
  | errcmd
  | bitcntLo
  | bitcntHi
  | digest (i : Fin 6)
  /-- The reserved offsets 0x1C, 0x38 and 0x3C (R41). -/
  | reserved
  deriving DecidableEq, Repr

/-- The register at a byte offset of the window, one per multiple of 4 (R33). -/
def regAt (off : Nat) : Reg :=
  if off = 0x00 then .cmd
  else if off = 0x04 then .data
  else if off = 0x08 then .status
  else if off = 0x0C then .errinfo
  else if off = 0x10 then .errcmd
  else if off = 0x14 then .bitcntLo
  else if off = 0x18 then .bitcntHi
  else if off = 0x1C then .reserved
  else if off < 0x38 then .digest (Fin.ofNat 6 (off / 4 - 8))
  else .reserved

/-- `RegRead` (R56): what a read of a register returns.  It changes nothing (R54). -/
def regRead (r : Reg) (s : State) : Word :=
  match r with
  | .cmd => 0
  | .data => s.data
  | .status => statusWord s
  | .errinfo => errInfoWord s
  | .errcmd => s.errcmd
  | .bitcntLo => s.bitcntLo
  | .bitcntHi => s.bitcntHi
  | .digest i => s.acc[i.val]
  | .reserved => 0

/-- Whether some octet of an access lies in the 64-byte window (R51); DEDUCED for an access across an edge of it
(assumption 9).  An access of which none does is no access to this engine. -/
def Access.inWindow (a : Access) : Bool := decide (0 < a.bytes ∧ a.off < 64 ∧ 0 < a.off + a.bytes)

/-- Whether the window admits an access: 32 bits wide, at an offset that is a multiple of 4 (R53). -/
def Access.admitted (a : Access) : Bool := decide (a.bytes = 4 ∧ a.off % 4 = 0)

/-- The register an admitted access to the window names. -/
def Access.reg (a : Access) : Reg := regAt a.off.toNat

/-- The aligned 32-bit access at offset `off` of the window. -/
def Access.word (off : Nat) : Access := { off := off, bytes := 4 }

/-- The access to the bus address `addr`, as an offset from `ENGINE_BASE` (R51). -/
def Access.atBus (addr bytes : Nat) : Access := { off := (addr : Int) - (Config.engineBase : Int), bytes := bytes }

end Sys2Proof.Machine
end

