-- ==== Sys2Proof/Machine/HostAgent.lean ====
section
/-! DEFINITION. The host agent (spec/00_scope.md R15, spec/20_memory.md R53 to R57, spec/30_encoding.md R88): the
writes to the window, the command port, and one line of the host's program as one atomic transition. -/

namespace Sys2Proof.Machine

/-- `ExecuteCommand(v)` (R100): an illegal word takes ILLEGAL_CMD in every STATE and phase (R84); a legal one runs
its command, whose own meaning makes the BUSY check. -/
def executeCommand (v : Word) (s : State) : Result :=
  match decode v with
  | .ok i => exec i s
  | .error _ => .next (raiseCmdError .illegalCmd v s)

/-- `RegWrite` (R55, R56): a write to CMD submits a command, a write to DATA sets it, any other is ignored. -/
def regWrite (r : Reg) (v : Word) (s : State) : Result :=
  match r with
  | .cmd => executeCommand v s
  | .data => .next (s.setData v)
  | .status => .next s
  | .errinfo => .next s
  | .errcmd => .next s
  | .bitcntLo => .next s
  | .bitcntHi => .next s
  | .digest _ => .next s
  | .reserved => .next s

/-- What a host name holds; a name no read has bound holds a free value. -/
def nameValue (name : Nat) : List (Nat × Word) → Word
  | [] => Config.unboundName name
  | (n, v) :: l => if n = name then v else nameValue name l

/-- Binds a host name (R88), keeping the names strictly rising. -/
def bindName (name : Nat) (v : Word) : List (Nat × Word) → List (Nat × Word)
  | [] => [(name, v)]
  | (n, u) :: l =>
    if name < n then (name, v) :: (n, u) :: l
    else if name = n then (name, v) :: l
    else (n, u) :: bindName name v l

/-- The host moves on to its next line. -/
def advanceHost (s : State) : State := s.setHostPc (s.hostPc + 1)

/-- Binds `name` to `v` in the state. -/
def bindInState (name : Nat) (v : Word) (s : State) : State := s.setHostNames (bindName name v s.hostNames)

/-- `wr` (R88).  An access outside the window is none to this engine (R51); one to the window that is not admitted
has no step (R53). -/
def hostWrite (a : Access) (v : Word) (s : State) : Result :=
  if a.inWindow then
    if a.admitted then regWrite a.reg v (advanceHost s)
    else .refused (.accessNotAdmitted a.off a.bytes)
  else .next (advanceHost s)

/-- `rd` (R88), as `hostWrite`.  What an address outside the window returns is a free value. -/
def hostRead (a : Access) (name : Nat) (s : State) : Result :=
  if a.inWindow then
    if a.admitted then .next (bindInState name (regRead a.reg s) (advanceHost s))
    else .refused (.accessNotAdmitted a.off a.bytes)
  else .next (bindInState name (Config.foreignRead s.freeIdx) ((advanceHost s).setFreeIdx (s.freeIdx + 1)))

/-- `bnz` (R88): the host's own branch, taken when `(name & mask) != 0`. -/
def hostBranch (name : Nat) (mask : Word) (label : Nat) (s : State) : State :=
  if nameValue name s.hostNames &&& mask = 0 then advanceHost s else s.setHostPc label

/-- The line the host performs next; none when its program is over. -/
def nextHostOp (s : State) : Option HostOp := s.hostProg[s.hostPc]?

/-- The host's turn: one line of its program; it holds when its program is over (R14, R241). -/
def hostTurn (s : State) : Result :=
  match nextHostOp s with
  | none => .next s
  | some (.write a v) => hostWrite a v s
  | some (.read a name) => hostRead a name s
  | some (.bnz name mask label) => .next (hostBranch name mask label s)

end Sys2Proof.Machine
end

