-- ==== Sys2Proof/Machine/Scheduler.lean ====
section
/-! DEFINITION. Whose turn it is (spec/00_scope.md R15): the agents interleave in any order.  The order is data:
`State.schedule` says it as far as it reaches.  Past its end an agent alone in having a transition moves, and where
both have one the choice is a free value. -/

namespace Sys2Proof.Machine

/-- Whether the engine agent has an enabled transition (R146, R150, R151). -/
def engineReady (s : State) : Bool := s.busy && decide (s.stepNo.toNat ≤ 192)

/-- Whether an access has a step: it is outside the window or admitted (R51, R53). -/
def Access.hasStep (a : Access) : Bool := !a.inWindow || a.admitted

/-- Whether the host agent has an enabled transition: its program is not over and it is not stuck (R53, R241). -/
def hostReady (s : State) : Bool :=
  match nextHostOp s with
  | none => false
  | some (.write a _) => a.hasStep
  | some (.read a _) => a.hasStep
  | some (.bnz _ _ _) => true

/-- Who moves next (R15). -/
def nextTurn (s : State) : Turn :=
  match s.schedule with
  | t :: _ => t
  | [] =>
    if engineReady s then
      if hostReady s then (if Config.engineFirst s.freeIdx then .engine else .host) else .engine
    else .host

/-- The state once the turn has been chosen: the schedule's entry is used up, or the free choice is. -/
def takeTurn (s : State) : State :=
  match s.schedule with
  | _ :: l => s.setSchedule l
  | [] => if engineReady s && hostReady s then s.setFreeIdx (s.freeIdx + 1) else s

/-- Gives the host the one line `wr CMD, v`, to be performed on the very next step. -/
def offerCommand (v : Word) (s : State) : State :=
  ((s.setHostProg [.write (Access.word 0) v]).setHostPc 0).setSchedule (.host :: s.schedule)

end Sys2Proof.Machine
end

