-- ==== Sys2Proof/Machine/Step.lean ====
section
/-! DEFINITION. One transition of the whole machine (spec/00_scope.md R15), and where it finds its next command. -/

namespace Sys2Proof.Machine

/-- One transition: the turn is chosen, then that agent moves, or the reset input acts (R15, R230). -/
def step (s : State) : Host.Outcome State Fault Refusal :=
  match nextTurn s with
  | .host => hostTurn (takeTurn s)
  | .engine => engineTurn Config.engine (takeTurn s)
  | .reset => .next (resetEngine (takeTurn s))

/-- `s` with the command word of a table row as what the host writes to CMD on the very next step.  The engine
fetches nothing (R27): a command comes from the host alone. -/
def State.withFetchWord (s : State) (nbits w : Nat) : State := offerCommand (tableWord nbits w) s

end Sys2Proof.Machine
end

