-- ==== Sys2Proof/Machine/Hash.lean ====
section
/-! DEFINITION. The digest as a function of the message (spec/40_commands.md R114, R115) and its canonical text
(R117).  The machine does not call these; they say what it is to compute. -/

namespace Sys2Proof.Machine

/-- Octets 192b..192b+191 of a message; past its end, zeros. -/
def blockAt (msg : List Octet) (b : Nat) : Block :=
  Vector.ofFn fun i : Fin 192 => msg.getD (192 * b + i.val) 0

/-- The chaining value after the first `b` full blocks of a message (R114's loop). -/
def chain (p : EngineParams) (msg : List Octet) : Nat → Six
  | 0 => p.tables.iv
  | b + 1 => compress p (chain p msg b) (adapter (blockAt msg b))

/-- The chaining value after all data blocks, the zero-filled partial one among them (R114, R175). -/
def dataChain (p : EngineParams) (msg : List Octet) : Six :=
  if msg.length % 192 = 0 then chain p msg (msg.length / 192)
  else compress p (chain p msg (msg.length / 192))
    (adapter (zeroFill (blockAt msg (msg.length / 192)) (msg.length % 192)))

/-- The bit count of a message, 8 × its length modulo 2^64 (R114, R179, R181). -/
def bitCountOf (msg : List Octet) : BitVec 64 := BitVec.ofNat 64 (8 * msg.length)

/-- `H(M)` (R114). -/
def hash (p : EngineParams) (msg : List Octet) : Six :=
  compress p (dataChain p msg)
    (adapter (padBlock ((bitCountOf msg).extractLsb' 32 32) ((bitCountOf msg).extractLsb' 0 32)))

/-- How many compressions hashing `n` octets takes (R115). -/
def compressionCount (n : Nat) : Nat := n / 192 + (if n % 192 = 0 then 0 else 1) + 1

/-- One hex digit; R117 admits either case. -/
def hexDigit (upper : Bool) (n : Nat) : Char :=
  if n < 10 then Char.ofNat (48 + n) else Char.ofNat ((if upper then 55 else 87) + n)

/-- A word as 8 hex digits, most significant first (R117). -/
def wordText (upper : Bool) (v : Word) : List Char :=
  (List.range 8).map fun i => hexDigit upper (v.extractLsb' (4 * (7 - i)) 4).toNat

/-- The canonical text of a digest: 48 hex digits, f0 first (R62, R117). -/
def digestText (upper : Bool) (d : Six) : List Char := d.toList.flatMap (wordText upper)

end Sys2Proof.Machine
end

