-- ==== Sys2Proof/Safety.lean ====
section
/-! DEFINITION. What counts as a safe state, a fair run and a correct digest, in the terms claims use. -/

namespace Sys2Proof.Machine

/-- The invariants 1 to 6 of R44, and R27's bound on STEP while a compression runs.  R44's seventh, that ERRCODE is
0..4, is in the type `ErrCode`. -/
def EngineInv (s : State) : Prop :=
  s.fill.toNat ≤ 191 ∧
  (s.cphase = .idle → s.stepNo = 0) ∧
  (s.cphase = .run → s.stepNo.toNat ≤ 192) ∧
  (s.dstate = .finData ∨ s.dstate = .finPad → s.cphase = .run) ∧
  (s.dstate = .uninit ∨ s.dstate = .finalized → s.cphase = .idle) ∧
  (s.dstate = .finData ∨ s.dstate = .finPad ∨ s.dstate = .finalized → s.fill = 0) ∧
  (s.err = false → s.errcode = .none ∧ s.errcmd = 0)

/-- The two states hold the same engine (R20): they may differ in the model's own fields alone. -/
def SameEngine (s t : State) : Prop :=
  t.acc = s.acc ∧ t.bitcntLo = s.bitcntLo ∧ t.bitcntHi = s.bitcntHi ∧ t.fillbuf = s.fillbuf ∧ t.fill = s.fill ∧
  t.x = s.x ∧ t.w = s.w ∧ t.cphase = s.cphase ∧ t.stepNo = s.stepNo ∧ t.dstate = s.dstate ∧
  t.err = s.err ∧ t.errcode = s.errcode ∧ t.errcmd = s.errcmd ∧ t.data = s.data

/-- The two states hold the same host agent, schedule and free-value index. -/
def SameHost (s t : State) : Prop :=
  t.hostProg = s.hostProg ∧ t.hostPc = s.hostPc ∧ t.hostNames = s.hostNames ∧ t.schedule = s.schedule ∧
  t.freeIdx = s.freeIdx

/-- What a command error leaves (R203, R208): the code and the whole command word, if no error was recorded before;
everything else as it was. -/
def errorRecorded (code : ErrCode) (v : Word) (s : State) : State :=
  if s.err = true then s else { s with err := true, errcode := code, errcmd := v }

/-- R84's four conditions on a command word, in terms of its bits: RSV is 31:7, OP 3:0, NBYTES 6:4 (R81). -/
def IllegalWord (v : Word) : Prop :=
  v >>> 7 ≠ 0 ∨
  5 ≤ (v &&& 0xF).toNat ∨
  (v &&& 0xF ≠ 2 ∧ v >>> 4 &&& 0x7 ≠ 0) ∨
  (v &&& 0xF = 2 ∧ 5 ≤ (v >>> 4 &&& 0x7).toNat)

/-- The 64-bit bit counter `BITCNT_HI ++ BITCNT_LO` (R22). -/
def State.bitCount (s : State) : BitVec 64 := s.bitcntHi ++ s.bitcntLo

/-- The host names are strictly rising, so that equal bindings are equal lists. -/
def NamesSorted (l : List (Nat × Word)) : Prop := (l.map Prod.fst).Pairwise (· < ·)

/-- The six fixed-point vectors of spec/95_test_vectors.md section 1.1: message octets and digest. -/
def fixedVectors : List (List Octet × Six) := [
  ([], #v[0xd3f0ad33, 0x79790917, 0x69135e44, 0xeb28aeda, 0x40e5423d, 0xd2e956e7]),
  ([0x61, 0x62, 0x63], #v[0xf7ffabe5, 0x4ddb09a9, 0x3ebde51b, 0x90d1796a, 0x63ea3cc1, 0xa5ed093f]),
  ([0x41, 0x42, 0x43], #v[0x9c273091, 0x9216af67, 0xc3d9a325, 0x4401ade8, 0x5920b7c1, 0xd707c65d]),
  ([0x76, 0x61, 0x6c, 0x69, 0x64, 0x75, 0x73],
    #v[0xa16bbad7, 0x293dac29, 0x04cc1807, 0x6636125c, 0x2c68c29c, 0xcffa779d]),
  ([0x68, 0x65, 0x6c, 0x6c, 0x6f, 0x2c, 0x20, 0x77, 0x6f, 0x72, 0x6c, 0x64],
    #v[0xa54b0bad, 0xf8061b9b, 0x6f14c542, 0x0d2bd823, 0x9fbb7f67, 0x50b67af7]),
  ([0x64, 0x6c, 0x72, 0x6f, 0x77, 0x20, 0x2c, 0x6f, 0x6c, 0x6c, 0x65, 0x68],
    #v[0x3a39f172, 0xc900b9d8, 0x6efe31dd, 0xc065bdf9, 0xe02c4837, 0x50f9af86])]

/-- R8's admission test of a parameter set: it reproduces the six vectors.  The model assumes it of none. -/
def EngineParams.Admissible (p : EngineParams) : Prop := ∀ e ∈ fixedVectors, hash p e.1 = e.2

/-- DIGEST0..5 hold the fingerprint: DIGEST_VALID is 1 and no error is recorded (R113, R236, R237). -/
def State.digestReady (s : State) : Bool := s.digestValid && !s.err

/-- The run has ended (R241): the host's program is over and no compression is in progress. -/
def RunEnded (s : State) : Prop := nextHostOp s = none ∧ s.cphase = .idle

/-- The command the coming step accepts, if it accepts one (R100): the host's turn, a write to CMD, a legal word, and
no compression in progress. -/
def acceptedCommand (s : State) : Option Instr :=
  match nextTurn s, nextHostOp s with
  | .host, some (.write a v) =>
    if a.inWindow && a.admitted && decide (a.reg = .cmd) && !s.busy then
      match decode v with
      | .ok i => some i
      | .error _ => none
    else none
  | _, _ => none

/-- The octets absorbed since INIT (R23), followed through the coming step: INIT empties them, an APPEND accepted
while a message is open adds its own. -/
def messageAfter (msg : List Octet) (s : State) : List Octet :=
  match acceptedCommand s with
  | some .init => []
  | some (.append n) => if s.dstate = .absorb then msg ++ operandOctets s n.toNat else msg
  | _ => msg

/-- The working registers are where the mixing steps done so far have brought them (R143, R146). -/
def Compressing (s : State) (blk : BlockWords) : Prop :=
  s.x = blk ∧ s.w = mixSteps Config.engine blk s.stepNo.toNat s.acc

/-- The engine's state is the one that the octets `msg` absorbed since INIT call for, in every STATE and at every
point of a compression (R23, R24, R102 to R107, R110, R114). -/
def Tracks (msg : List Octet) (s : State) : Prop :=
  EngineInv s ∧
  match s.dstate with
  | .uninit => True
  | .absorb =>
    s.bitCount = bitCountOf msg ∧ s.fill.toNat = msg.length % 192 ∧
    (∀ i (h : i < 192), i < msg.length % 192 → s.fillbuf[i] = (blockAt msg (msg.length / 192))[i]) ∧
    match s.cphase with
    | .idle => s.acc = chain Config.engine msg (msg.length / 192)
    | .run => 192 ≤ msg.length ∧ s.acc = chain Config.engine msg (msg.length / 192 - 1) ∧
        Compressing s (adapter (blockAt msg (msg.length / 192 - 1)))
  | .finData =>
    s.bitCount = bitCountOf msg ∧ msg.length % 192 ≠ 0 ∧ s.acc = chain Config.engine msg (msg.length / 192) ∧
    Compressing s (adapter (zeroFill (blockAt msg (msg.length / 192)) (msg.length % 192)))
  | .finPad =>
    s.bitCount = bitCountOf msg ∧ s.acc = dataChain Config.engine msg ∧
    Compressing s (adapter (padBlock ((bitCountOf msg).extractLsb' 32 32) ((bitCountOf msg).extractLsb' 0 32)))
  | .finalized => s.bitCount = bitCountOf msg ∧ s.acc = hash Config.engine msg

/-- Engine turns until the compression unit is idle (R151, R240). -/
def engineWork (s : State) : Nat :=
  match s.cphase with
  | .idle => 0
  | .run => 193 - s.stepNo.toNat + (if s.dstate = .finData then 193 else 0)

/-- The engine runs until it is idle, as a host that waits for BUSY = 0 lets it (R233). -/
def settle (s : State) : Result := engineRun Config.engine (engineWork s) s

/-- What `append n, v` hands over (R89): NBYTES and the DATA word. -/
abbrev Chunk := BitVec 3 × Word

/-- The octets of a chunk in message order (R59). -/
def chunkOctets (c : Chunk) : List Octet := (List.range c.1.toNat).map (octetOf c.2)

/-- `append n, v` and then a wait (R89, R233). -/
def feedChunk (c : Chunk) (s : State) : Result :=
  Result.andThen (exec (.append c.1) (s.setData c.2)) settle

/-- A sequence of chunks, each written only when BUSY is 0 (R114, R233). -/
def feed : List Chunk → State → Result
  | [], s => .next s
  | c :: cs, s => Result.andThen (feedChunk c s) (feed cs)

/-- The protocol of R233 for one message, the reads of the digest left out. -/
def hashMessage (cs : List Chunk) (s : State) : Result :=
  Result.andThen (exec .init s) fun s1 =>
    Result.andThen (feed cs s1) fun s2 => Result.andThen (exec .finalize s2) settle

/-- An infinite run of the machine. -/
def IsRun (σ : Nat → State) : Prop := ∀ n, step (σ n) = .next (σ (n + 1))

/-- The coming turn is the host's, and `u` is `s` with that turn taken (R15, in the form of assumption 3): it is
scheduled; or nothing is scheduled and the engine has no transition; or nothing is scheduled, both agents can move and
the free value chooses the host. -/
def HostMoves (s u : State) : Prop :=
  (∃ l, s.schedule = .host :: l ∧ u = { s with schedule := l }) ∨
  (s.schedule = [] ∧ engineReady s = false ∧ u = s) ∨
  (s.schedule = [] ∧ engineReady s = true ∧ hostReady s = true ∧ Config.engineFirst s.freeIdx = false ∧
    u = { s with freeIdx := s.freeIdx + 1 })

/-- The coming step is an engine transition. -/
def EngineMoves (s : State) : Prop := nextTurn s = .engine ∧ engineReady s = true

/-- How many enabled engine transitions there are among the `k` steps of a run from its state `n`. -/
def engineMoveCount (σ : Nat → State) (n : Nat) : Nat → Nat
  | 0 => 0
  | k + 1 => engineMoveCount σ n k +
      (if nextTurn (σ (n + k)) = .engine ∧ engineReady (σ (n + k)) = true then 1 else 0)

/-- The host goes on taking turns.  R15 promises fairness of the engine alone, so this is a premise where a claim
needs it (assumption 3). -/
def HostKeepsMoving (σ : Nat → State) : Prop := ∀ n, ∃ m, n ≤ m ∧ nextTurn (σ m) = .host

/-- Weak fairness of the engine's transitions (R15, R242): an engine that stays enabled moves in the end. -/
def WeaklyFair (σ : Nat → State) : Prop :=
  ∀ n, (∀ m, n ≤ m → engineReady (σ m) = true) → ∃ m, n ≤ m ∧ EngineMoves (σ m)

end Sys2Proof.Machine
end

