-- ==== Sys2Proof/Certificates/Slice0/Obligations.lean ====
section
/-! DEFINITION. The statements about the model, each a proposition to be proved elsewhere.  A docstring names the
rules of spec/ the statement formalises or rests on; OBLIGATIONS.json says which of them it states whole. -/

open Sys2Proof Sys2Proof.Machine

/-! ## Encoding -/

/-- R81, R82, R86: the decoder and the encoder agree in both directions, for every command and every word. -/
def Obligations.DecodeEncodeAgree : Prop :=
  ∀ (v : Word) (i : Instr), decode v = .ok i ↔ i.wellFormed = true ∧ encode i = v

/-- R86: what every 32-bit word decodes to; the legal words are the nine listed. -/
def Obligations.LegalWordsAreTheNine : Prop :=
  ∀ v : Word,
    (decode v = .ok .nop ↔ v = 0x00000000) ∧
    (decode v = .ok .init ↔ v = 0x00000001) ∧
    (decode v = .ok (.append 0) ↔ v = 0x00000002) ∧
    (decode v = .ok (.append 1) ↔ v = 0x00000012) ∧
    (decode v = .ok (.append 2) ↔ v = 0x00000022) ∧
    (decode v = .ok (.append 3) ↔ v = 0x00000032) ∧
    (decode v = .ok (.append 4) ↔ v = 0x00000042) ∧
    (decode v = .ok .finalize ↔ v = 0x00000003) ∧
    (decode v = .ok .clrerr ↔ v = 0x00000004) ∧
    ((∃ e, decode v = .error e) ↔
      v ∉ ([0x00000000, 0x00000001, 0x00000002, 0x00000012, 0x00000022, 0x00000032, 0x00000042,
        0x00000003, 0x00000004] : List Word))

/-- R84: the decoder rejects exactly the illegal words, and submitting one takes ILLEGAL_CMD and changes nothing
else, in every STATE and whether or not the engine is BUSY. -/
def Obligations.IllegalWordsTakeIllegalCmd : Prop :=
  ∀ (v : Word) (s : State),
    ((∃ e, decode v = .error e) ↔ IllegalWord v) ∧
    (IllegalWord v → executeCommand v s = .next (errorRecorded .illegalCmd v s))

/-- R81, R82: words written out from the field table decode to the commands they stand for. -/
def Obligations.WrittenOutWordsDecode : Prop :=
  decode 0b0000000000000000000000000_000_0000#32 = .ok .nop ∧
  decode 0b0000000000000000000000000_000_0001#32 = .ok .init ∧
  decode 0b0000000000000000000000000_011_0010#32 = .ok (.append 3) ∧
  decode 0b0000000000000000000000000_000_0011#32 = .ok .finalize ∧
  decode 0b0000000000000000000000000_000_0100#32 = .ok .clrerr

/-! ## The step -/

/-- R34, R56, R100: when the host's turn comes and its line is a write of `v` to CMD, the step is `exec` of the
command `v` decodes to, or the command error of an illegal word, with the turn used up and the host on its next
line.  With nothing scheduled and the engine idle, the turn is the host's. -/
def Obligations.StepRunsDecodedCommand : Prop :=
  ∀ (s : State) (v : Word), nextHostOp s = some (.write { off := 0, bytes := 4 } v) →
    (∀ l, s.schedule = .host :: l →
      (∀ i, decode v = .ok i → step s = exec i { s with schedule := l, hostPc := s.hostPc + 1 }) ∧
      (∀ e, decode v = .error e →
        step s = .next (errorRecorded .illegalCmd v { s with schedule := l, hostPc := s.hostPc + 1 }))) ∧
    (s.schedule = [] → s.cphase = .idle →
      (∀ i, decode v = .ok i → step s = exec i { s with hostPc := s.hostPc + 1 }) ∧
      (∀ e, decode v = .error e →
        step s = .next (errorRecorded .illegalCmd v { s with hostPc := s.hostPc + 1 })))

/-- R15: when the engine's turn comes the step is the engine's transition, and so it is when nothing is scheduled,
the host's program is over and a compression runs. -/
def Obligations.StepRunsEngineTurn : Prop :=
  ∀ s : State,
    (∀ l, s.schedule = .engine :: l → step s = engineTurn Config.engine { s with schedule := l }) ∧
    (s.schedule = [] → nextHostOp s = none → s.cphase = .run → s.stepNo.toNat ≤ 192 →
      step s = engineTurn Config.engine s)

/-- R15: with nothing scheduled and both agents able to move, the step is a transition of one of the two.  Which one
is a free value; that each such choice has an index of its own is the model's form (assumption 3). -/
def Obligations.UnscheduledStepIsOneOfTheTwo : Prop :=
  ∀ s : State, s.schedule = [] → engineReady s = true → hostReady s = true →
    step s = (if Config.engineFirst s.freeIdx then engineTurn Config.engine { s with freeIdx := s.freeIdx + 1 }
      else hostTurn { s with freeIdx := s.freeIdx + 1 }) ∧
    (∃ t, step s = .next t)

/-! ## Commands -/

/-- R101: NOP is accepted with no effect in every STATE while BUSY = 0; while BUSY = 1 it takes BUSY. -/
def Obligations.NopCompletes : Prop :=
  ∀ s : State,
    (s.cphase = .idle → exec .nop s = .next s) ∧
    (s.cphase = .run → exec .nop s = .next (errorRecorded .busy 0x00000000 s))

/-- R102: INIT, accepted in every STATE while BUSY = 0, loads IV, clears the counter and FILL and opens a message;
nothing else changes, two in a row leave what one leaves, and after reset it gives STATUS 2.  While BUSY = 1 it takes
BUSY. -/
def Obligations.InitCompletes : Prop :=
  (∀ s : State, s.cphase = .idle →
    ∃ t, exec .init s = .next t ∧
      t = { s with acc := Config.engine.tables.iv, bitcntLo := 0, bitcntHi := 0, fill := 0, dstate := .absorb } ∧
      exec .init t = .next t) ∧
  (∀ s : State, s.cphase = .run → exec .init s = .next (errorRecorded .busy 0x00000001 s)) ∧
  (∃ t, exec .init State.reset = .next t ∧ regRead .status t = 0x00000002)

/-- R105: APPEND 0 is accepted with no effect in every STATE while BUSY = 0; while BUSY = 1 it takes BUSY. -/
def Obligations.AppendZeroHasNoEffect : Prop :=
  ∀ s : State,
    (s.cphase = .idle → exec (.append 0) s = .next s) ∧
    (s.cphase = .run → exec (.append 0) s = .next (errorRecorded .busy 0x00000002 s))

/-- R103, R110, R104: an APPEND that does not complete the block puts its octets, in order, after those buffered,
adds 8 × NBYTES to the counter and changes nothing else; the unit stays idle. -/
def Obligations.AppendWithinBlock : Prop :=
  ∀ (s : State) (n : BitVec 3), s.cphase = .idle → s.dstate = .absorb → 1 ≤ n.toNat → n.toNat ≤ 4 →
    s.fill.toNat + n.toNat < 192 →
    ∃ t, exec (.append n) s = .next t ∧
      t = { s with
        fillbuf := t.fillbuf, fill := t.fill, bitcntLo := t.bitcntLo, bitcntHi := t.bitcntHi } ∧
      t.fill.toNat = s.fill.toNat + n.toNat ∧
      (∀ i (h : i < 192), t.fillbuf[i] =
        if s.fill.toNat ≤ i ∧ i < s.fill.toNat + n.toNat then octetOf s.data (i - s.fill.toNat)
        else s.fillbuf[i]) ∧
      t.bitCount = s.bitCount + BitVec.ofNat 64 (8 * n.toNat)

/-- R103, R110, R111, R143: an APPEND that completes the block hands it to the compression unit in the same
transition (X is the block's words, W is ACC, STEP 0, BUSY); the octets left over start the next block. -/
def Obligations.AppendCompletesBlock : Prop :=
  ∀ (s : State) (n : BitVec 3), s.cphase = .idle → s.dstate = .absorb → 1 ≤ n.toNat → n.toNat ≤ 4 →
    s.fill.toNat ≤ 191 → 192 ≤ s.fill.toNat + n.toNat →
    ∃ (t : State) (b : Block), exec (.append n) s = .next t ∧
      (∀ i (h : i < 192), b[i] =
        if s.fill.toNat ≤ i then octetOf s.data (i - s.fill.toNat) else s.fillbuf[i]) ∧
      t = { s with
        x := adapter b, w := s.acc, cphase := .run, stepNo := 0,
        fillbuf := t.fillbuf, fill := t.fill, bitcntLo := t.bitcntLo, bitcntHi := t.bitcntHi } ∧
      t.fill.toNat = s.fill.toNat + n.toNat - 192 ∧
      (∀ i (h : i < 192), t.fillbuf[i] =
        if i < s.fill.toNat + n.toNat - 192 then octetOf s.data (192 - s.fill.toNat + i) else b[i]) ∧
      t.bitCount = s.bitCount + BitVec.ofNat 64 (8 * n.toNat)

/-- R103, R201: an APPEND of 1 to 4 octets is rejected with NOT_INIT in UNINIT and with AFTER_FINAL in FINALIZED. -/
def Obligations.AppendRejectedByState : Prop :=
  ∀ (s : State) (n : BitVec 3), s.cphase = .idle → 1 ≤ n.toNat → n.toNat ≤ 4 →
    (s.dstate = .uninit →
      exec (.append n) s = .next (errorRecorded .notInit (n.setWidth 32 <<< 4 ||| 0x2) s)) ∧
    (s.dstate = .finalized →
      exec (.append n) s = .next (errorRecorded .afterFinal (n.setWidth 32 <<< 4 ||| 0x2) s))

/-- R84, R202: an APPEND with NBYTES 5, 6 or 7 takes ILLEGAL_CMD, whatever the state. -/
def Obligations.AppendOfTooManyIsIllegal : Prop :=
  ∀ (s : State) (n : BitVec 3), 5 ≤ n.toNat →
    exec (.append n) s = .next (errorRecorded .illegalCmd (n.setWidth 32 <<< 4 ||| 0x2) s)

/-- R106, R177: FINALIZE with FILL = 0 starts compressing the finalization block, whose words are R177's, and goes to
FIN_PAD; nothing else changes. -/
def Obligations.FinalizeOnEmptyBuffer : Prop :=
  ∀ s : State, s.cphase = .idle → s.dstate = .absorb → s.fill = 0 →
    ∃ t, exec .finalize s = .next t ∧
      t = { s with x := t.x, w := s.acc, cphase := .run, stepNo := 0, dstate := .finPad } ∧
      (∀ j (h : j < 48), t.x[j] =
        if j = 0 then 0x000000AA else if j = 46 then bswap32 s.bitcntHi
        else if j = 47 then bswap32 s.bitcntLo else 0)

/-- R106, R175, R170: FINALIZE with FILL > 0 starts compressing the buffered octets, zero-filled, empties the buffer
and goes to FIN_DATA; nothing else changes. -/
def Obligations.FinalizeOnPartialBlock : Prop :=
  ∀ s : State, s.cphase = .idle → s.dstate = .absorb → s.fill ≠ 0 →
    ∃ t, exec .finalize s = .next t ∧
      t = { s with x := t.x, w := s.acc, cphase := .run, stepNo := 0, fill := 0, dstate := .finData } ∧
      (∀ j k (hj : j < 48) (hk : k < 4), octetOf t.x[j] k =
        if 4 * j + k < s.fill.toNat then s.fillbuf[4 * j + k] else 0)

/-- R106, R201: FINALIZE is rejected with NOT_INIT in UNINIT and with AFTER_FINAL in FINALIZED. -/
def Obligations.FinalizeRejectedByState : Prop :=
  ∀ s : State, s.cphase = .idle →
    (s.dstate = .uninit → exec .finalize s = .next (errorRecorded .notInit 0x00000003 s)) ∧
    (s.dstate = .finalized → exec .finalize s = .next (errorRecorded .afterFinal 0x00000003 s))

/-- R108: CLRERR clears the three error registers in every STATE while BUSY = 0 and changes nothing else; while
BUSY = 1 it takes BUSY, recorded only if no error was. -/
def Obligations.ClrerrCompletes : Prop :=
  ∀ s : State,
    (s.cphase = .idle → exec .clrerr s = .next { s with err := false, errcode := .none, errcmd := 0 }) ∧
    (s.cphase = .run → exec .clrerr s = .next (errorRecorded .busy 0x00000004 s))

/-! ## Command errors -/

/-- R100, R234: while a compression runs, every legal command is rejected with BUSY and changes nothing else. -/
def Obligations.BusyRejectsEveryCommand : Prop :=
  ∀ (s : State) (v : Word), s.cphase = .run → ¬ IllegalWord v →
    executeCommand v s = .next (errorRecorded .busy v s)

/-- R208, R203: while an error is recorded, the three error registers keep it through every command but an accepted
CLRERR, and a command rejected then changes nothing at all. -/
def Obligations.FirstErrorIsKept : Prop :=
  ∀ (s t : State) (v : Word), s.err = true → executeCommand v s = .next t →
    ((v ≠ 0x00000004 ∨ s.cphase = .run) →
      t.err = s.err ∧ t.errcode = s.errcode ∧ t.errcmd = s.errcmd) ∧
    ((IllegalWord v ∨ s.cphase = .run) → t = s) ∧
    ((s.dstate = .uninit ∨ s.dstate = .finalized) →
      v ∈ ([0x00000012, 0x00000022, 0x00000032, 0x00000042, 0x00000003] : List Word) → t = s)

/-- R204: which error a command word reports, the first that applies in the order ILLEGAL_CMD, BUSY, then NOT_INIT or
AFTER_FINAL, and none for the words that pass them all. -/
def Obligations.CommandErrorPriority : Prop :=
  ∀ (s t : State) (v : Word), s.err = false → s.errcode = .none → executeCommand v s = .next t →
    (IllegalWord v → t.errcode = .illegalCmd) ∧
    (¬ IllegalWord v → s.cphase = .run → t.errcode = .busy) ∧
    (¬ IllegalWord v → s.cphase = .idle →
      v ∈ ([0x00000012, 0x00000022, 0x00000032, 0x00000042, 0x00000003] : List Word) →
      (s.dstate = .uninit → t.errcode = .notInit) ∧
      (s.dstate = .finalized → t.errcode = .afterFinal) ∧
      (s.dstate ≠ .uninit → s.dstate ≠ .finalized → t.errcode = .none)) ∧
    (¬ IllegalWord v → s.cphase = .idle →
      v ∉ ([0x00000012, 0x00000022, 0x00000032, 0x00000042, 0x00000003] : List Word) → t.errcode = .none)

/-- R200, R206: no word written to CMD stops the machine. -/
def Obligations.CommandsNeverStop : Prop :=
  ∀ (s : State) (v : Word), ∃ t, executeCommand v s = .next t

/-! ## The compression unit -/

/-- R146: MixStep at STEP = n writes W[t] with the pseudocode's value and advances STEP; no other working register and
no other state changes. -/
def Obligations.MixStepFollowsRule : Prop :=
  ∀ (p : EngineParams) (s : State) (n : Fin 192), s.cphase = .run → s.stepNo.toNat = n.val →
    ∃ t, engineTurn p s = .next t ∧
      t = { s with w := t.w, stepNo := t.stepNo } ∧
      t.stepNo.toNat = n.val + 1 ∧
      (let tg : Nat := if p.order = .descending then (6 - n.val % 6) % 6 else n.val % 6
       let r : Fin 4 := ⟨n.val / 48, by omega⟩
       let j : Fin 48 := ⟨n.val % 48, by omega⟩
       let src : Nat → Word := fun k => s.w[(tg + k) % 6]'(Nat.mod_lt _ (by decide))
       let wd : Word := s.x[(p.tables.perm r j).val]
       let m : Word := p.tables.mix r (src 1) (src 2) (src 3) (src 4) (src 5)
       let u0 : Word := if p.combine = .add then m + wd else m ^^^ wd
       let u : Word := if p.feedback = .addOld then u0 + src 0 else u0
       let v : Word := u + (wd + p.tables.k n).rotateLeft (p.tables.r1 n).val
       ∀ i (h : i < 6), t.w[i] = if i = tg then (v + wd).rotateRight (p.tables.r2 n).val else s.w[i])

/-- R144, R145, R153: the target moves one register back each step under DESCENDING and one on under ASCENDING,
starting at a, and is never one of the step's own five sources. -/
def Obligations.TargetsRotate : Prop :=
  ∀ (o : TargetOrder) (n k : Nat),
    target o 0 = 0 ∧
    target .descending n = target .descending (n + 1) + 1 ∧
    target .ascending (n + 1) = target .ascending n + 1 ∧
    (1 ≤ k → k ≤ 5 → ((target o n).val + k) % 6 ≠ (target o n).val)

/-- R148: every block word is read exactly once in each round and exactly 4 times in a compression, whatever the
tables. -/
def Obligations.EachBlockWordReadFourTimes : Prop :=
  ∀ (p : EngineParams) (i : Fin 48),
    (∀ r : Fin 4, (Finset.univ.filter fun n : Fin 192 =>
      n.val / 48 = r.val ∧ p.tables.perm (roundOf n) (indexOf n) = i).card = 1) ∧
    (Finset.univ.filter fun n : Fin 192 => p.tables.perm (roundOf n) (indexOf n) = i).card = 4

/-- R150, R107: FeedForward adds W into ACC word by word and frees the unit; then FIN_DATA starts the finalization
block and goes to FIN_PAD, FIN_PAD goes to FINALIZED, and any other STATE stays. -/
def Obligations.FeedForwardEndsCompression : Prop :=
  ∀ (p : EngineParams) (s : State), s.cphase = .run → s.stepNo = 192 →
    ∃ t, engineTurn p s = .next t ∧
      (∀ i (h : i < 6), t.acc[i] = s.acc[i] + s.w[i]) ∧
      (s.dstate = .finData →
        t = { s with acc := t.acc, w := t.acc, stepNo := 0, dstate := .finPad,
                     x := adapter (padBlock s.bitcntHi s.bitcntLo) }) ∧
      (s.dstate = .finPad → t = { s with acc := t.acc, cphase := .idle, stepNo := 0, dstate := .finalized }) ∧
      (s.dstate ≠ .finData → s.dstate ≠ .finPad → t = { s with acc := t.acc, cphase := .idle, stepNo := 0 })

/-- R151: the engine has no transition when idle, and when a compression runs it always has one. -/
def Obligations.EngineNeverStalls : Prop :=
  ∀ (p : EngineParams) (s : State),
    (s.cphase = .idle → engineTurn p s = .next s) ∧
    (s.cphase = .run → s.stepNo.toNat ≤ 192 → ∃ t, engineTurn p s = .next t ∧ t ≠ s)

/-- R152: during the 192 mixing steps ACC, and with it every DIGEST register, keeps the value from before the block;
the next transition, the feed-forward, sets all six words at once. -/
def Obligations.AccKeptUntilFeedForward : Prop :=
  ∀ (p : EngineParams) (s : State) (blk : BlockWords),
    (∀ k, k ≤ 192 → ∃ t, engineRun p k (startCompress blk s) = .next t ∧
      t.cphase = .run ∧ t.stepNo.toNat = k ∧ t.acc = s.acc ∧
      ∀ i : Fin 6, regRead (.digest i) t = s.acc[i.val]) ∧
    (∃ t u, engineRun p 192 (startCompress blk s) = .next t ∧ engineTurn p t = .next u ∧
      u.acc = addSix s.acc t.w)

/-- R154: `StartCompress(X)` and the 193 engine transitions that follow leave ACC = `compress(ACC, X)`. -/
def Obligations.CompressionComputesCompress : Prop :=
  ∀ (p : EngineParams) (s : State) (blk : BlockWords),
    ∃ t, engineRun p 193 (startCompress blk s) = .next t ∧ t.acc = compress p s.acc blk

/-- R240, R106, R107: after FINALIZE the engine takes 193 transitions to FINALIZED when FILL was 0 and 386 otherwise,
and BUSY stays 1 before the last. -/
def Obligations.FinalizationLength : Prop :=
  ∀ (p : EngineParams) (s t : State), s.cphase = .idle → s.dstate = .absorb → exec .finalize s = .next t →
    (∃ u, engineRun p (if s.fill = 0 then 193 else 386) t = .next u ∧ u.dstate = .finalized ∧ u.cphase = .idle) ∧
    (∀ k, k < (if s.fill = 0 then 193 else 386) → ∃ u, engineRun p k t = .next u ∧ u.cphase = .run)

/-! ## Adapter, padding, bit counter -/

/-- R170: word j of the adapter holds octets 4j to 4j+3, the first least significant. -/
def Obligations.AdapterIsLittleEndian : Prop :=
  ∀ (b : Block) (j k : Nat) (hj : j < 48) (hk : k < 4),
    ((adapter b)[j] >>> (8 * k)).setWidth 8 = b[4 * j + k]

/-- R177: the words of the finalization block. -/
def Obligations.PadBlockWords : Prop :=
  ∀ (hi lo : Word),
    (adapter (padBlock hi lo))[0] = 0x000000AA ∧
    (∀ j (h : j < 48), 1 ≤ j → j ≤ 45 → (adapter (padBlock hi lo))[j] = 0x00000000) ∧
    (adapter (padBlock hi lo))[46] = bswap32 hi ∧
    (adapter (padBlock hi lo))[47] = bswap32 lo

/-- R104: the counter grows by `d` modulo 2^64, the carry into the high half included, and nothing else changes. -/
def Obligations.BitCounterAddsModulo : Prop :=
  ∀ (d : Word) (s : State),
    (bitCountAdd d s).bitCount = s.bitCount + d.setWidth 64 ∧
    bitCountAdd d s = { s with
      bitcntLo := (bitCountAdd d s).bitcntLo, bitcntHi := (bitCountAdd d s).bitcntHi }

/-! ## The register window and the host -/

/-- R36: STATUS stands at offset 0x08, its fields are computed from state when it is read, and a write to it is
ignored. -/
def Obligations.StatusFields : Prop :=
  ∀ s : State,
    ((regRead (regAt 0x08) s).getLsbD 0 = decide (s.cphase = .run)) ∧
    ((regRead (regAt 0x08) s).extractLsb' 1 3 = match s.dstate with
      | .uninit => 0 | .absorb => 1 | .finData => 2 | .finPad => 3 | .finalized => 4) ∧
    ((regRead (regAt 0x08) s).getLsbD 4 = decide (s.dstate = .finalized)) ∧
    ((regRead (regAt 0x08) s).getLsbD 5 = s.err) ∧
    ((regRead (regAt 0x08) s).extractLsb' 6 2 = 0) ∧
    ((regRead (regAt 0x08) s).extractLsb' 8 8 = s.fill) ∧
    ((regRead (regAt 0x08) s).extractLsb' 16 8 = s.stepNo) ∧
    ((regRead (regAt 0x08) s).extractLsb' 24 8 = 0) ∧
    (∀ v, regWrite (regAt 0x08) v s = .next s)

/-- R33, R34 to R41, R56: what a read at each offset of the window returns. -/
def Obligations.WindowReads : Prop :=
  ∀ s : State,
    regRead (regAt 0x00) s = 0 ∧ regRead (regAt 0x04) s = s.data ∧ regAt 0x08 = .status ∧
    regRead (regAt 0x0C) s = (match s.errcode with
      | .none => 0 | .illegalCmd => 1 | .busy => 2 | .notInit => 3 | .afterFinal => 4) ∧
    regRead (regAt 0x10) s = s.errcmd ∧ regRead (regAt 0x14) s = s.bitcntLo ∧
    regRead (regAt 0x18) s = s.bitcntHi ∧ regRead (regAt 0x1C) s = 0 ∧
    (∀ i (h : i < 6), regRead (regAt (0x20 + 4 * i)) s = s.acc[i]) ∧
    regRead (regAt 0x38) s = 0 ∧ regRead (regAt 0x3C) s = 0

/-- R54, R57: when the host's turn comes, a read of the window at any aligned offset changes no state of the engine,
and binds the host's name to the register's value. -/
def Obligations.ReadsHaveNoSideEffects : Prop :=
  ∀ (s u : State) (k name : Nat), HostMoves s u → k < 16 →
    nextHostOp s = some (.read { off := 4 * (k : Int), bytes := 4 } name) →
    ∃ t, step s = .next t ∧
      t = { u with hostPc := s.hostPc + 1, hostNames := t.hostNames } ∧
      nameValue name t.hostNames = regRead (regAt (4 * k)) s ∧
      (∀ r, regRead r t = regRead r s) ∧
      (∀ other, other ≠ name → nameValue other t.hostNames = nameValue other s.hostNames)

/-- R55, R31, R35: when the host's turn comes, a write to DATA sets DATA, whether or not BUSY, and a write to any
register but CMD and DATA changes nothing. -/
def Obligations.WritesBesidesCmd : Prop :=
  ∀ (s u : State) (k : Nat) (v : Word), HostMoves s u → 1 ≤ k → k < 16 →
    nextHostOp s = some (.write { off := 4 * (k : Int), bytes := 4 } v) →
    step s = .next { u with hostPc := s.hostPc + 1, data := if k = 1 then v else s.data }

/-- R53: when the host's turn comes, an access with an octet in the window that is not an aligned 32-bit access has no
step.  That an access lying across an edge of the window is one of these is DEDUCED (assumption 9). -/
def Obligations.InadmissibleAccessHasNoStep : Prop :=
  ∀ (s u : State) (a : Access), HostMoves s u →
    (∃ i < a.bytes, 0 ≤ a.off + i ∧ a.off + i < 64) → (a.bytes ≠ 4 ∨ a.off % 4 ≠ 0) →
    (∀ v, nextHostOp s = some (.write a v) → step s = .refused (.accessNotAdmitted a.off a.bytes)) ∧
    (∀ name, nextHostOp s = some (.read a name) → step s = .refused (.accessNotAdmitted a.off a.bytes))

/-- R51: when the host's turn comes, an access with no octet in the window is not an access to this engine: of the
engine nothing changes, and the host goes on.  That a read there binds its name to a free value is the model's choice
(assumption 8). -/
def Obligations.AccessOutsideWindowLeavesEngine : Prop :=
  ∀ (s u : State) (a : Access), HostMoves s u →
    (∀ i < a.bytes, a.off + i < 0 ∨ 64 ≤ a.off + i) →
    (∀ v, nextHostOp s = some (.write a v) → step s = .next { u with hostPc := s.hostPc + 1 }) ∧
    (∀ name, nextHostOp s = some (.read a name) →
      ∃ t, step s = .next t ∧
        t = { u with hostPc := s.hostPc + 1, hostNames := t.hostNames, freeIdx := u.freeIdx + 1 } ∧
        nameValue name t.hostNames = Config.foreignRead u.freeIdx ∧
        (∀ other, other ≠ name → nameValue other t.hostNames = nameValue other s.hostNames))

/-- R88: when the host's turn comes, `bnz` goes to its label when `name & mask` is not 0 and to the next line
otherwise; the engine is not concerned. -/
def Obligations.HostBranches : Prop :=
  ∀ (s u : State) (name label : Nat) (mask : Word), HostMoves s u →
    nextHostOp s = some (.bnz name mask label) →
    step s = .next { u with
      hostPc := if nameValue name s.hostNames &&& mask ≠ 0 then label else s.hostPc + 1 }

/-! ## Reset -/

/-- R45, R231: the reset values of all the engine's state. -/
def Obligations.ResetValues : Prop :=
  (∀ i (h : i < 6), State.reset.acc[i] = 0x00000000) ∧
  State.reset.bitcntLo = 0 ∧ State.reset.bitcntHi = 0 ∧
  (∀ i (h : i < 192), State.reset.fillbuf[i] = 0x00) ∧ State.reset.fill = 0 ∧
  (∀ i (h : i < 48), State.reset.x[i] = 0x00000000) ∧ (∀ i (h : i < 6), State.reset.w[i] = 0x00000000) ∧
  State.reset.cphase = .idle ∧ State.reset.stepNo = 0 ∧ State.reset.dstate = .uninit ∧
  State.reset.err = false ∧ State.reset.errcode = .none ∧ State.reset.errcmd = 0 ∧ State.reset.data = 0x00000000

/-- R230: the reset input, at any time, sets every piece of the engine's state to its reset value.  That the host
agent keeps its place is the model's choice (assumption 6). -/
def Obligations.ResetTurnResetsEngine : Prop :=
  ∀ (s : State) (l : List Turn), s.schedule = .reset :: l →
    ∃ t, step s = .next t ∧ SameEngine State.reset t ∧ SameHost { s with schedule := l } t

/-- R231: while the engine is as reset leaves it, no step of the engine and no host line but a write to CMD or DATA
changes it; DIGEST0..5 and STATUS read 0; NOP, APPEND 0 and CLRERR have no effect; and of all command words only INIT's
changes more than the error registers. -/
def Obligations.AfterResetNothingHappens : Prop :=
  ∀ s : State, SameEngine State.reset s →
    (∀ t, step s = .next t →
      (nextTurn s = .engine ∨
        (nextTurn s = .host ∧ ∀ v, nextHostOp s ≠ some (.write { off := 0x00, bytes := 4 } v) ∧
          nextHostOp s ≠ some (.write { off := 0x04, bytes := 4 } v))) →
      SameEngine s t) ∧
    regRead .status s = 0 ∧ (∀ i : Fin 6, regRead (.digest i) s = 0) ∧
    exec .nop s = .next s ∧ exec (.append 0) s = .next s ∧ exec .clrerr s = .next s ∧
    (∀ v t, v ≠ 0x00000001 → executeCommand v s = .next t →
      t = { s with err := t.err, errcode := t.errcode, errcmd := t.errcmd })

/-! ## Rules of the whole machine -/

/-- R44 at reset. -/
def Obligations.InvHoldsAtReset : Prop := EngineInv State.reset

/-- R44, R27: every transition, of the host, of the engine or of the reset input, keeps the invariants. -/
def Obligations.StepKeepsInv : Prop :=
  ∀ s t : State, EngineInv s → step s = .next t → EngineInv t

/-- R151, R200: in a state that meets the invariants no transition faults. -/
def Obligations.InvStatesNeverFault : Prop :=
  ∀ s : State, EngineInv s → ∀ f, step s ≠ .fault f

/-- R112: the transitions of STATE that a step can take, and what takes each. -/
def Obligations.DigestStateTransitions : Prop :=
  ∀ s t : State, EngineInv s → step s = .next t → t.dstate ≠ s.dstate →
    (acceptedCommand s = some .init ∧ (s.dstate = .uninit ∨ s.dstate = .finalized) ∧ t.dstate = .absorb) ∨
    (acceptedCommand s = some .finalize ∧ s.dstate = .absorb ∧
      t.dstate = (if s.fill = 0 then .finPad else .finData)) ∨
    (EngineMoves s ∧ s.stepNo = 192 ∧ s.dstate = .finData ∧ t.dstate = .finPad) ∨
    (EngineMoves s ∧ s.stepNo = 192 ∧ s.dstate = .finPad ∧ t.dstate = .finalized) ∨
    (nextTurn s = .reset ∧ t.dstate = .uninit)

/-- R21: only INIT, the feed-forward and reset write ACC. -/
def Obligations.AccWriters : Prop :=
  ∀ s t : State, step s = .next t → t.acc ≠ s.acc →
    acceptedCommand s = some .init ∨ (EngineMoves s ∧ s.stepNo = 192) ∨ nextTurn s = .reset

/-- R236: in UNINIT the digest registers hold 0, because only reset leads there; every transition keeps this. -/
def Obligations.DigestZeroInUninit : Prop :=
  (∀ i (h : i < 6), State.reset.acc[i] = 0) ∧
  ∀ s t : State, (s.dstate = .uninit → s.cphase = .idle ∧ ∀ i (h : i < 6), s.acc[i] = 0) →
    step s = .next t → t.dstate = .uninit → t.cphase = .idle ∧ ∀ i (h : i < 6), t.acc[i] = 0

/-- R22: only INIT, an APPEND of at least one octet and reset write the bit counter. -/
def Obligations.BitCounterWriters : Prop :=
  ∀ s t : State, step s = .next t → t.bitCount ≠ s.bitCount →
    acceptedCommand s = some .init ∨ (∃ n, n ≠ 0 ∧ acceptedCommand s = some (.append n)) ∨ nextTurn s = .reset

/-- R31: only a write to DATA and reset change DATA; no engine transition does. -/
def Obligations.DataWriters : Prop :=
  ∀ s t : State, step s = .next t → t.data ≠ s.data →
    (nextTurn s = .host ∧ nextHostOp s = some (.write { off := 4, bytes := 4 } t.data)) ∨ nextTurn s = .reset

/-- R30: only a write to CMD and reset change the error registers. -/
def Obligations.ErrorRegisterWriters : Prop :=
  ∀ s t : State, step s = .next t →
    (t.err ≠ s.err ∨ t.errcode ≠ s.errcode ∨ t.errcmd ≠ s.errcmd) →
    (nextTurn s = .host ∧ ∃ v, nextHostOp s = some (.write { off := 0, bytes := 4 } v)) ∨ nextTurn s = .reset

/-- R234, R42: BUSY rises only by an accepted APPEND that fills the block or an accepted FINALIZE. -/
def Obligations.BusyRisesOnlyByHostCommands : Prop :=
  ∀ s t : State, EngineInv s → step s = .next t → s.cphase = .idle → t.cphase = .run →
    s.dstate = .absorb ∧
    ((∃ n, acceptedCommand s = some (.append n) ∧ 192 ≤ s.fill.toNat + n.toNat) ∨
      acceptedCommand s = some .finalize)

/-- R113: once FINALIZED, the digest and STATE stay through every transition but an accepted INIT and reset. -/
def Obligations.DigestKeptOnceValid : Prop :=
  ∀ s t : State, EngineInv s → s.dstate = .finalized → step s = .next t →
    acceptedCommand s ≠ some .init → nextTurn s ≠ .reset → t.acc = s.acc ∧ t.dstate = .finalized

/-- R234 (O2): a CMD write made while the last transition of a compression is due may be rejected or accepted; both
orders are transitions of the machine. -/
def Obligations.UnpolledWriteHasBothOutcomes : Prop :=
  ∀ (s : State) (l : List Turn), s.cphase = .run → s.stepNo = 192 → s.dstate = .absorb → s.err = false →
    s.fill.toNat < 191 → nextHostOp s = some (.write { off := 0, bytes := 4 } 0x00000012) →
    (∃ t, step { s with schedule := .host :: l } = .next t ∧
      t.errcode = .busy ∧ t.fill = s.fill ∧ t.bitCount = s.bitCount) ∧
    (∃ t u, step { s with schedule := .engine :: .host :: l } = .next t ∧ step t = .next u ∧
      u.err = false ∧ u.fill = s.fill + 1 ∧ u.bitCount = s.bitCount + 8)

/-! ## The digest -/

/-- R23, R24, R114, R179: along every interleaving, the engine's state is the one the octets absorbed since INIT call
for; in FINALIZED, ACC is H of them. -/
def Obligations.StepTracksMessage : Prop :=
  ∀ (msg : List Octet) (s t : State), Tracks msg s → step s = .next t → Tracks (messageAfter msg s) t

/-- R114, R233: INIT, any APPENDs each written only when BUSY = 0, FINALIZE, and a wait end in FINALIZED with
ACC = H(M), DIGEST_VALID = 1 and the error registers as they were. -/
def Obligations.ProtocolComputesHash : Prop :=
  ∀ (s : State) (cs : List Chunk), EngineInv s → s.cphase = .idle → (∀ c ∈ cs, c.1.toNat ≤ 4) →
    ∃ t, hashMessage cs s = .next t ∧
      t.dstate = .finalized ∧ t.cphase = .idle ∧
      t.acc = hash Config.engine (cs.flatMap chunkOctets) ∧
      t.err = s.err ∧ t.errcode = s.errcode ∧ t.errcmd = s.errcmd

/-- R116: two sequences of APPENDs after the same INIT whose octets concatenate to the same string leave the same ACC,
counter, FILL and buffered octets. -/
def Obligations.StreamingEquivalence : Prop :=
  ∀ (s : State) (cs ds : List Chunk), EngineInv s → s.cphase = .idle →
    (∀ c ∈ cs, c.1.toNat ≤ 4) → (∀ c ∈ ds, c.1.toNat ≤ 4) →
    cs.flatMap chunkOctets = ds.flatMap chunkOctets →
    ∃ s1 t u, exec .init s = .next s1 ∧ feed cs s1 = .next t ∧ feed ds s1 = .next u ∧
      t.acc = u.acc ∧ t.bitCount = u.bitCount ∧ t.fill = u.fill ∧
      (∀ i (h : i < 192), i < t.fill.toNat → t.fillbuf[i] = u.fillbuf[i])

/-- R151, R15: in every fair run, from every point on, BUSY is 0 again at some later point. -/
def Obligations.FairRunsBecomeIdle : Prop :=
  ∀ σ : Nat → State, IsRun σ → WeaklyFair σ → EngineInv (σ 0) → ∀ n, ∃ m, n ≤ m ∧ (σ m).cphase = .idle

/-- R242, R89: in every fair run a host that stands at the head of a `wait` loop and goes on taking turns leaves the
loop, after at most 386 engine transitions.  That the host goes on is a premise, because R15 promises fairness of the
engine alone (assumption 3). -/
def Obligations.WaitLoopEnds : Prop :=
  ∀ (σ : Nat → State) (n here name : Nat), IsRun σ → WeaklyFair σ → HostKeepsMoving σ → EngineInv (σ 0) →
    (σ n).hostProg[here]? = some (.read { off := 0x08, bytes := 4 } name) →
    (σ n).hostProg[here + 1]? = some (.bnz name 0x1 here) →
    (σ n).hostPc = here →
    ∃ k, (σ (n + k)).hostPc = here + 2 ∧ engineMoveCount σ n k ≤ 386
end

