-- ==== Sys2Proof/Laws/State.lean ====
section
/-! SUPPORT. What each update of Machine/State.lean does to each field of the state. -/

namespace Sys2Proof.Machine.State

variable (s : State)

@[simp] theorem setAcc_acc (v : Six) : (s.setAcc v).acc = v := rfl
@[simp] theorem setAcc_bitcntLo (v : Six) : (s.setAcc v).bitcntLo = s.bitcntLo := rfl
@[simp] theorem setAcc_bitcntHi (v : Six) : (s.setAcc v).bitcntHi = s.bitcntHi := rfl
@[simp] theorem setAcc_fillbuf (v : Six) : (s.setAcc v).fillbuf = s.fillbuf := rfl
@[simp] theorem setAcc_fill (v : Six) : (s.setAcc v).fill = s.fill := rfl
@[simp] theorem setAcc_x (v : Six) : (s.setAcc v).x = s.x := rfl
@[simp] theorem setAcc_w (v : Six) : (s.setAcc v).w = s.w := rfl
@[simp] theorem setAcc_cphase (v : Six) : (s.setAcc v).cphase = s.cphase := rfl
@[simp] theorem setAcc_stepNo (v : Six) : (s.setAcc v).stepNo = s.stepNo := rfl
@[simp] theorem setAcc_dstate (v : Six) : (s.setAcc v).dstate = s.dstate := rfl
@[simp] theorem setAcc_err (v : Six) : (s.setAcc v).err = s.err := rfl
@[simp] theorem setAcc_errcode (v : Six) : (s.setAcc v).errcode = s.errcode := rfl
@[simp] theorem setAcc_errcmd (v : Six) : (s.setAcc v).errcmd = s.errcmd := rfl
@[simp] theorem setAcc_data (v : Six) : (s.setAcc v).data = s.data := rfl
@[simp] theorem setAcc_hostProg (v : Six) : (s.setAcc v).hostProg = s.hostProg := rfl
@[simp] theorem setAcc_hostPc (v : Six) : (s.setAcc v).hostPc = s.hostPc := rfl
@[simp] theorem setAcc_hostNames (v : Six) : (s.setAcc v).hostNames = s.hostNames := rfl
@[simp] theorem setAcc_schedule (v : Six) : (s.setAcc v).schedule = s.schedule := rfl
@[simp] theorem setAcc_freeIdx (v : Six) : (s.setAcc v).freeIdx = s.freeIdx := rfl

@[simp] theorem setBitcnt_acc (hi lo : Word) : (s.setBitcnt hi lo).acc = s.acc := rfl
@[simp] theorem setBitcnt_bitcntLo (hi lo : Word) : (s.setBitcnt hi lo).bitcntLo = lo := rfl
@[simp] theorem setBitcnt_bitcntHi (hi lo : Word) : (s.setBitcnt hi lo).bitcntHi = hi := rfl
@[simp] theorem setBitcnt_fillbuf (hi lo : Word) : (s.setBitcnt hi lo).fillbuf = s.fillbuf := rfl
@[simp] theorem setBitcnt_fill (hi lo : Word) : (s.setBitcnt hi lo).fill = s.fill := rfl
@[simp] theorem setBitcnt_x (hi lo : Word) : (s.setBitcnt hi lo).x = s.x := rfl
@[simp] theorem setBitcnt_w (hi lo : Word) : (s.setBitcnt hi lo).w = s.w := rfl
@[simp] theorem setBitcnt_cphase (hi lo : Word) : (s.setBitcnt hi lo).cphase = s.cphase := rfl
@[simp] theorem setBitcnt_stepNo (hi lo : Word) : (s.setBitcnt hi lo).stepNo = s.stepNo := rfl
@[simp] theorem setBitcnt_dstate (hi lo : Word) : (s.setBitcnt hi lo).dstate = s.dstate := rfl
@[simp] theorem setBitcnt_err (hi lo : Word) : (s.setBitcnt hi lo).err = s.err := rfl
@[simp] theorem setBitcnt_errcode (hi lo : Word) : (s.setBitcnt hi lo).errcode = s.errcode := rfl
@[simp] theorem setBitcnt_errcmd (hi lo : Word) : (s.setBitcnt hi lo).errcmd = s.errcmd := rfl
@[simp] theorem setBitcnt_data (hi lo : Word) : (s.setBitcnt hi lo).data = s.data := rfl
@[simp] theorem setBitcnt_hostProg (hi lo : Word) : (s.setBitcnt hi lo).hostProg = s.hostProg := rfl
@[simp] theorem setBitcnt_hostPc (hi lo : Word) : (s.setBitcnt hi lo).hostPc = s.hostPc := rfl
@[simp] theorem setBitcnt_hostNames (hi lo : Word) : (s.setBitcnt hi lo).hostNames = s.hostNames := rfl
@[simp] theorem setBitcnt_schedule (hi lo : Word) : (s.setBitcnt hi lo).schedule = s.schedule := rfl
@[simp] theorem setBitcnt_freeIdx (hi lo : Word) : (s.setBitcnt hi lo).freeIdx = s.freeIdx := rfl

@[simp] theorem setFillbuf_acc (b : Block) : (s.setFillbuf b).acc = s.acc := rfl
@[simp] theorem setFillbuf_bitcntLo (b : Block) : (s.setFillbuf b).bitcntLo = s.bitcntLo := rfl
@[simp] theorem setFillbuf_bitcntHi (b : Block) : (s.setFillbuf b).bitcntHi = s.bitcntHi := rfl
@[simp] theorem setFillbuf_fillbuf (b : Block) : (s.setFillbuf b).fillbuf = b := rfl
@[simp] theorem setFillbuf_fill (b : Block) : (s.setFillbuf b).fill = s.fill := rfl
@[simp] theorem setFillbuf_x (b : Block) : (s.setFillbuf b).x = s.x := rfl
@[simp] theorem setFillbuf_w (b : Block) : (s.setFillbuf b).w = s.w := rfl
@[simp] theorem setFillbuf_cphase (b : Block) : (s.setFillbuf b).cphase = s.cphase := rfl
@[simp] theorem setFillbuf_stepNo (b : Block) : (s.setFillbuf b).stepNo = s.stepNo := rfl
@[simp] theorem setFillbuf_dstate (b : Block) : (s.setFillbuf b).dstate = s.dstate := rfl
@[simp] theorem setFillbuf_err (b : Block) : (s.setFillbuf b).err = s.err := rfl
@[simp] theorem setFillbuf_errcode (b : Block) : (s.setFillbuf b).errcode = s.errcode := rfl
@[simp] theorem setFillbuf_errcmd (b : Block) : (s.setFillbuf b).errcmd = s.errcmd := rfl
@[simp] theorem setFillbuf_data (b : Block) : (s.setFillbuf b).data = s.data := rfl
@[simp] theorem setFillbuf_hostProg (b : Block) : (s.setFillbuf b).hostProg = s.hostProg := rfl
@[simp] theorem setFillbuf_hostPc (b : Block) : (s.setFillbuf b).hostPc = s.hostPc := rfl
@[simp] theorem setFillbuf_hostNames (b : Block) : (s.setFillbuf b).hostNames = s.hostNames := rfl
@[simp] theorem setFillbuf_schedule (b : Block) : (s.setFillbuf b).schedule = s.schedule := rfl
@[simp] theorem setFillbuf_freeIdx (b : Block) : (s.setFillbuf b).freeIdx = s.freeIdx := rfl

@[simp] theorem setFill_acc (n : BitVec 8) : (s.setFill n).acc = s.acc := rfl
@[simp] theorem setFill_bitcntLo (n : BitVec 8) : (s.setFill n).bitcntLo = s.bitcntLo := rfl
@[simp] theorem setFill_bitcntHi (n : BitVec 8) : (s.setFill n).bitcntHi = s.bitcntHi := rfl
@[simp] theorem setFill_fillbuf (n : BitVec 8) : (s.setFill n).fillbuf = s.fillbuf := rfl
@[simp] theorem setFill_fill (n : BitVec 8) : (s.setFill n).fill = n := rfl
@[simp] theorem setFill_x (n : BitVec 8) : (s.setFill n).x = s.x := rfl
@[simp] theorem setFill_w (n : BitVec 8) : (s.setFill n).w = s.w := rfl
@[simp] theorem setFill_cphase (n : BitVec 8) : (s.setFill n).cphase = s.cphase := rfl
@[simp] theorem setFill_stepNo (n : BitVec 8) : (s.setFill n).stepNo = s.stepNo := rfl
@[simp] theorem setFill_dstate (n : BitVec 8) : (s.setFill n).dstate = s.dstate := rfl
@[simp] theorem setFill_err (n : BitVec 8) : (s.setFill n).err = s.err := rfl
@[simp] theorem setFill_errcode (n : BitVec 8) : (s.setFill n).errcode = s.errcode := rfl
@[simp] theorem setFill_errcmd (n : BitVec 8) : (s.setFill n).errcmd = s.errcmd := rfl
@[simp] theorem setFill_data (n : BitVec 8) : (s.setFill n).data = s.data := rfl
@[simp] theorem setFill_hostProg (n : BitVec 8) : (s.setFill n).hostProg = s.hostProg := rfl
@[simp] theorem setFill_hostPc (n : BitVec 8) : (s.setFill n).hostPc = s.hostPc := rfl
@[simp] theorem setFill_hostNames (n : BitVec 8) : (s.setFill n).hostNames = s.hostNames := rfl
@[simp] theorem setFill_schedule (n : BitVec 8) : (s.setFill n).schedule = s.schedule := rfl
@[simp] theorem setFill_freeIdx (n : BitVec 8) : (s.setFill n).freeIdx = s.freeIdx := rfl

@[simp] theorem setX_acc (v : BlockWords) : (s.setX v).acc = s.acc := rfl
@[simp] theorem setX_bitcntLo (v : BlockWords) : (s.setX v).bitcntLo = s.bitcntLo := rfl
@[simp] theorem setX_bitcntHi (v : BlockWords) : (s.setX v).bitcntHi = s.bitcntHi := rfl
@[simp] theorem setX_fillbuf (v : BlockWords) : (s.setX v).fillbuf = s.fillbuf := rfl
@[simp] theorem setX_fill (v : BlockWords) : (s.setX v).fill = s.fill := rfl
@[simp] theorem setX_x (v : BlockWords) : (s.setX v).x = v := rfl
@[simp] theorem setX_w (v : BlockWords) : (s.setX v).w = s.w := rfl
@[simp] theorem setX_cphase (v : BlockWords) : (s.setX v).cphase = s.cphase := rfl
@[simp] theorem setX_stepNo (v : BlockWords) : (s.setX v).stepNo = s.stepNo := rfl
@[simp] theorem setX_dstate (v : BlockWords) : (s.setX v).dstate = s.dstate := rfl
@[simp] theorem setX_err (v : BlockWords) : (s.setX v).err = s.err := rfl
@[simp] theorem setX_errcode (v : BlockWords) : (s.setX v).errcode = s.errcode := rfl
@[simp] theorem setX_errcmd (v : BlockWords) : (s.setX v).errcmd = s.errcmd := rfl
@[simp] theorem setX_data (v : BlockWords) : (s.setX v).data = s.data := rfl
@[simp] theorem setX_hostProg (v : BlockWords) : (s.setX v).hostProg = s.hostProg := rfl
@[simp] theorem setX_hostPc (v : BlockWords) : (s.setX v).hostPc = s.hostPc := rfl
@[simp] theorem setX_hostNames (v : BlockWords) : (s.setX v).hostNames = s.hostNames := rfl
@[simp] theorem setX_schedule (v : BlockWords) : (s.setX v).schedule = s.schedule := rfl
@[simp] theorem setX_freeIdx (v : BlockWords) : (s.setX v).freeIdx = s.freeIdx := rfl

@[simp] theorem setW_acc (v : Six) : (s.setW v).acc = s.acc := rfl
@[simp] theorem setW_bitcntLo (v : Six) : (s.setW v).bitcntLo = s.bitcntLo := rfl
@[simp] theorem setW_bitcntHi (v : Six) : (s.setW v).bitcntHi = s.bitcntHi := rfl
@[simp] theorem setW_fillbuf (v : Six) : (s.setW v).fillbuf = s.fillbuf := rfl
@[simp] theorem setW_fill (v : Six) : (s.setW v).fill = s.fill := rfl
@[simp] theorem setW_x (v : Six) : (s.setW v).x = s.x := rfl
@[simp] theorem setW_w (v : Six) : (s.setW v).w = v := rfl
@[simp] theorem setW_cphase (v : Six) : (s.setW v).cphase = s.cphase := rfl
@[simp] theorem setW_stepNo (v : Six) : (s.setW v).stepNo = s.stepNo := rfl
@[simp] theorem setW_dstate (v : Six) : (s.setW v).dstate = s.dstate := rfl
@[simp] theorem setW_err (v : Six) : (s.setW v).err = s.err := rfl
@[simp] theorem setW_errcode (v : Six) : (s.setW v).errcode = s.errcode := rfl
@[simp] theorem setW_errcmd (v : Six) : (s.setW v).errcmd = s.errcmd := rfl
@[simp] theorem setW_data (v : Six) : (s.setW v).data = s.data := rfl
@[simp] theorem setW_hostProg (v : Six) : (s.setW v).hostProg = s.hostProg := rfl
@[simp] theorem setW_hostPc (v : Six) : (s.setW v).hostPc = s.hostPc := rfl
@[simp] theorem setW_hostNames (v : Six) : (s.setW v).hostNames = s.hostNames := rfl
@[simp] theorem setW_schedule (v : Six) : (s.setW v).schedule = s.schedule := rfl
@[simp] theorem setW_freeIdx (v : Six) : (s.setW v).freeIdx = s.freeIdx := rfl

@[simp] theorem setSeq_acc (c : CPhase) (n : BitVec 8) : (s.setSeq c n).acc = s.acc := rfl
@[simp] theorem setSeq_bitcntLo (c : CPhase) (n : BitVec 8) : (s.setSeq c n).bitcntLo = s.bitcntLo := rfl
@[simp] theorem setSeq_bitcntHi (c : CPhase) (n : BitVec 8) : (s.setSeq c n).bitcntHi = s.bitcntHi := rfl
@[simp] theorem setSeq_fillbuf (c : CPhase) (n : BitVec 8) : (s.setSeq c n).fillbuf = s.fillbuf := rfl
@[simp] theorem setSeq_fill (c : CPhase) (n : BitVec 8) : (s.setSeq c n).fill = s.fill := rfl
@[simp] theorem setSeq_x (c : CPhase) (n : BitVec 8) : (s.setSeq c n).x = s.x := rfl
@[simp] theorem setSeq_w (c : CPhase) (n : BitVec 8) : (s.setSeq c n).w = s.w := rfl
@[simp] theorem setSeq_cphase (c : CPhase) (n : BitVec 8) : (s.setSeq c n).cphase = c := rfl
@[simp] theorem setSeq_stepNo (c : CPhase) (n : BitVec 8) : (s.setSeq c n).stepNo = n := rfl
@[simp] theorem setSeq_dstate (c : CPhase) (n : BitVec 8) : (s.setSeq c n).dstate = s.dstate := rfl
@[simp] theorem setSeq_err (c : CPhase) (n : BitVec 8) : (s.setSeq c n).err = s.err := rfl
@[simp] theorem setSeq_errcode (c : CPhase) (n : BitVec 8) : (s.setSeq c n).errcode = s.errcode := rfl
@[simp] theorem setSeq_errcmd (c : CPhase) (n : BitVec 8) : (s.setSeq c n).errcmd = s.errcmd := rfl
@[simp] theorem setSeq_data (c : CPhase) (n : BitVec 8) : (s.setSeq c n).data = s.data := rfl
@[simp] theorem setSeq_hostProg (c : CPhase) (n : BitVec 8) : (s.setSeq c n).hostProg = s.hostProg := rfl
@[simp] theorem setSeq_hostPc (c : CPhase) (n : BitVec 8) : (s.setSeq c n).hostPc = s.hostPc := rfl
@[simp] theorem setSeq_hostNames (c : CPhase) (n : BitVec 8) : (s.setSeq c n).hostNames = s.hostNames := rfl
@[simp] theorem setSeq_schedule (c : CPhase) (n : BitVec 8) : (s.setSeq c n).schedule = s.schedule := rfl
@[simp] theorem setSeq_freeIdx (c : CPhase) (n : BitVec 8) : (s.setSeq c n).freeIdx = s.freeIdx := rfl

@[simp] theorem setDState_acc (d : DState) : (s.setDState d).acc = s.acc := rfl
@[simp] theorem setDState_bitcntLo (d : DState) : (s.setDState d).bitcntLo = s.bitcntLo := rfl
@[simp] theorem setDState_bitcntHi (d : DState) : (s.setDState d).bitcntHi = s.bitcntHi := rfl
@[simp] theorem setDState_fillbuf (d : DState) : (s.setDState d).fillbuf = s.fillbuf := rfl
@[simp] theorem setDState_fill (d : DState) : (s.setDState d).fill = s.fill := rfl
@[simp] theorem setDState_x (d : DState) : (s.setDState d).x = s.x := rfl
@[simp] theorem setDState_w (d : DState) : (s.setDState d).w = s.w := rfl
@[simp] theorem setDState_cphase (d : DState) : (s.setDState d).cphase = s.cphase := rfl
@[simp] theorem setDState_stepNo (d : DState) : (s.setDState d).stepNo = s.stepNo := rfl
@[simp] theorem setDState_dstate (d : DState) : (s.setDState d).dstate = d := rfl
@[simp] theorem setDState_err (d : DState) : (s.setDState d).err = s.err := rfl
@[simp] theorem setDState_errcode (d : DState) : (s.setDState d).errcode = s.errcode := rfl
@[simp] theorem setDState_errcmd (d : DState) : (s.setDState d).errcmd = s.errcmd := rfl
@[simp] theorem setDState_data (d : DState) : (s.setDState d).data = s.data := rfl
@[simp] theorem setDState_hostProg (d : DState) : (s.setDState d).hostProg = s.hostProg := rfl
@[simp] theorem setDState_hostPc (d : DState) : (s.setDState d).hostPc = s.hostPc := rfl
@[simp] theorem setDState_hostNames (d : DState) : (s.setDState d).hostNames = s.hostNames := rfl
@[simp] theorem setDState_schedule (d : DState) : (s.setDState d).schedule = s.schedule := rfl
@[simp] theorem setDState_freeIdx (d : DState) : (s.setDState d).freeIdx = s.freeIdx := rfl

@[simp] theorem setError_acc (e : Bool) (c : ErrCode) (v : Word) : (s.setError e c v).acc = s.acc := rfl
@[simp] theorem setError_bitcntLo (e : Bool) (c : ErrCode) (v : Word) : (s.setError e c v).bitcntLo = s.bitcntLo := rfl
@[simp] theorem setError_bitcntHi (e : Bool) (c : ErrCode) (v : Word) : (s.setError e c v).bitcntHi = s.bitcntHi := rfl
@[simp] theorem setError_fillbuf (e : Bool) (c : ErrCode) (v : Word) : (s.setError e c v).fillbuf = s.fillbuf := rfl
@[simp] theorem setError_fill (e : Bool) (c : ErrCode) (v : Word) : (s.setError e c v).fill = s.fill := rfl
@[simp] theorem setError_x (e : Bool) (c : ErrCode) (v : Word) : (s.setError e c v).x = s.x := rfl
@[simp] theorem setError_w (e : Bool) (c : ErrCode) (v : Word) : (s.setError e c v).w = s.w := rfl
@[simp] theorem setError_cphase (e : Bool) (c : ErrCode) (v : Word) : (s.setError e c v).cphase = s.cphase := rfl
@[simp] theorem setError_stepNo (e : Bool) (c : ErrCode) (v : Word) : (s.setError e c v).stepNo = s.stepNo := rfl
@[simp] theorem setError_dstate (e : Bool) (c : ErrCode) (v : Word) : (s.setError e c v).dstate = s.dstate := rfl
@[simp] theorem setError_err (e : Bool) (c : ErrCode) (v : Word) : (s.setError e c v).err = e := rfl
@[simp] theorem setError_errcode (e : Bool) (c : ErrCode) (v : Word) : (s.setError e c v).errcode = c := rfl
@[simp] theorem setError_errcmd (e : Bool) (c : ErrCode) (v : Word) : (s.setError e c v).errcmd = v := rfl
@[simp] theorem setError_data (e : Bool) (c : ErrCode) (v : Word) : (s.setError e c v).data = s.data := rfl
@[simp] theorem setError_hostProg (e : Bool) (c : ErrCode) (v : Word) : (s.setError e c v).hostProg = s.hostProg := rfl
@[simp] theorem setError_hostPc (e : Bool) (c : ErrCode) (v : Word) : (s.setError e c v).hostPc = s.hostPc := rfl
@[simp] theorem setError_hostNames (e : Bool) (c : ErrCode) (v : Word) : (s.setError e c v).hostNames = s.hostNames := rfl
@[simp] theorem setError_schedule (e : Bool) (c : ErrCode) (v : Word) : (s.setError e c v).schedule = s.schedule := rfl
@[simp] theorem setError_freeIdx (e : Bool) (c : ErrCode) (v : Word) : (s.setError e c v).freeIdx = s.freeIdx := rfl

@[simp] theorem setData_acc (v : Word) : (s.setData v).acc = s.acc := rfl
@[simp] theorem setData_bitcntLo (v : Word) : (s.setData v).bitcntLo = s.bitcntLo := rfl
@[simp] theorem setData_bitcntHi (v : Word) : (s.setData v).bitcntHi = s.bitcntHi := rfl
@[simp] theorem setData_fillbuf (v : Word) : (s.setData v).fillbuf = s.fillbuf := rfl
@[simp] theorem setData_fill (v : Word) : (s.setData v).fill = s.fill := rfl
@[simp] theorem setData_x (v : Word) : (s.setData v).x = s.x := rfl
@[simp] theorem setData_w (v : Word) : (s.setData v).w = s.w := rfl
@[simp] theorem setData_cphase (v : Word) : (s.setData v).cphase = s.cphase := rfl
@[simp] theorem setData_stepNo (v : Word) : (s.setData v).stepNo = s.stepNo := rfl
@[simp] theorem setData_dstate (v : Word) : (s.setData v).dstate = s.dstate := rfl
@[simp] theorem setData_err (v : Word) : (s.setData v).err = s.err := rfl
@[simp] theorem setData_errcode (v : Word) : (s.setData v).errcode = s.errcode := rfl
@[simp] theorem setData_errcmd (v : Word) : (s.setData v).errcmd = s.errcmd := rfl
@[simp] theorem setData_data (v : Word) : (s.setData v).data = v := rfl
@[simp] theorem setData_hostProg (v : Word) : (s.setData v).hostProg = s.hostProg := rfl
@[simp] theorem setData_hostPc (v : Word) : (s.setData v).hostPc = s.hostPc := rfl
@[simp] theorem setData_hostNames (v : Word) : (s.setData v).hostNames = s.hostNames := rfl
@[simp] theorem setData_schedule (v : Word) : (s.setData v).schedule = s.schedule := rfl
@[simp] theorem setData_freeIdx (v : Word) : (s.setData v).freeIdx = s.freeIdx := rfl

@[simp] theorem setHostProg_acc (p : List HostOp) : (s.setHostProg p).acc = s.acc := rfl
@[simp] theorem setHostProg_bitcntLo (p : List HostOp) : (s.setHostProg p).bitcntLo = s.bitcntLo := rfl
@[simp] theorem setHostProg_bitcntHi (p : List HostOp) : (s.setHostProg p).bitcntHi = s.bitcntHi := rfl
@[simp] theorem setHostProg_fillbuf (p : List HostOp) : (s.setHostProg p).fillbuf = s.fillbuf := rfl
@[simp] theorem setHostProg_fill (p : List HostOp) : (s.setHostProg p).fill = s.fill := rfl
@[simp] theorem setHostProg_x (p : List HostOp) : (s.setHostProg p).x = s.x := rfl
@[simp] theorem setHostProg_w (p : List HostOp) : (s.setHostProg p).w = s.w := rfl
@[simp] theorem setHostProg_cphase (p : List HostOp) : (s.setHostProg p).cphase = s.cphase := rfl
@[simp] theorem setHostProg_stepNo (p : List HostOp) : (s.setHostProg p).stepNo = s.stepNo := rfl
@[simp] theorem setHostProg_dstate (p : List HostOp) : (s.setHostProg p).dstate = s.dstate := rfl
@[simp] theorem setHostProg_err (p : List HostOp) : (s.setHostProg p).err = s.err := rfl
@[simp] theorem setHostProg_errcode (p : List HostOp) : (s.setHostProg p).errcode = s.errcode := rfl
@[simp] theorem setHostProg_errcmd (p : List HostOp) : (s.setHostProg p).errcmd = s.errcmd := rfl
@[simp] theorem setHostProg_data (p : List HostOp) : (s.setHostProg p).data = s.data := rfl
@[simp] theorem setHostProg_hostProg (p : List HostOp) : (s.setHostProg p).hostProg = p := rfl
@[simp] theorem setHostProg_hostPc (p : List HostOp) : (s.setHostProg p).hostPc = s.hostPc := rfl
@[simp] theorem setHostProg_hostNames (p : List HostOp) : (s.setHostProg p).hostNames = s.hostNames := rfl
@[simp] theorem setHostProg_schedule (p : List HostOp) : (s.setHostProg p).schedule = s.schedule := rfl
@[simp] theorem setHostProg_freeIdx (p : List HostOp) : (s.setHostProg p).freeIdx = s.freeIdx := rfl

@[simp] theorem setHostPc_acc (n : Nat) : (s.setHostPc n).acc = s.acc := rfl
@[simp] theorem setHostPc_bitcntLo (n : Nat) : (s.setHostPc n).bitcntLo = s.bitcntLo := rfl
@[simp] theorem setHostPc_bitcntHi (n : Nat) : (s.setHostPc n).bitcntHi = s.bitcntHi := rfl
@[simp] theorem setHostPc_fillbuf (n : Nat) : (s.setHostPc n).fillbuf = s.fillbuf := rfl
@[simp] theorem setHostPc_fill (n : Nat) : (s.setHostPc n).fill = s.fill := rfl
@[simp] theorem setHostPc_x (n : Nat) : (s.setHostPc n).x = s.x := rfl
@[simp] theorem setHostPc_w (n : Nat) : (s.setHostPc n).w = s.w := rfl
@[simp] theorem setHostPc_cphase (n : Nat) : (s.setHostPc n).cphase = s.cphase := rfl
@[simp] theorem setHostPc_stepNo (n : Nat) : (s.setHostPc n).stepNo = s.stepNo := rfl
@[simp] theorem setHostPc_dstate (n : Nat) : (s.setHostPc n).dstate = s.dstate := rfl
@[simp] theorem setHostPc_err (n : Nat) : (s.setHostPc n).err = s.err := rfl
@[simp] theorem setHostPc_errcode (n : Nat) : (s.setHostPc n).errcode = s.errcode := rfl
@[simp] theorem setHostPc_errcmd (n : Nat) : (s.setHostPc n).errcmd = s.errcmd := rfl
@[simp] theorem setHostPc_data (n : Nat) : (s.setHostPc n).data = s.data := rfl
@[simp] theorem setHostPc_hostProg (n : Nat) : (s.setHostPc n).hostProg = s.hostProg := rfl
@[simp] theorem setHostPc_hostPc (n : Nat) : (s.setHostPc n).hostPc = n := rfl
@[simp] theorem setHostPc_hostNames (n : Nat) : (s.setHostPc n).hostNames = s.hostNames := rfl
@[simp] theorem setHostPc_schedule (n : Nat) : (s.setHostPc n).schedule = s.schedule := rfl
@[simp] theorem setHostPc_freeIdx (n : Nat) : (s.setHostPc n).freeIdx = s.freeIdx := rfl

@[simp] theorem setHostNames_acc (l : List (Nat × Word)) : (s.setHostNames l).acc = s.acc := rfl
@[simp] theorem setHostNames_bitcntLo (l : List (Nat × Word)) : (s.setHostNames l).bitcntLo = s.bitcntLo := rfl
@[simp] theorem setHostNames_bitcntHi (l : List (Nat × Word)) : (s.setHostNames l).bitcntHi = s.bitcntHi := rfl
@[simp] theorem setHostNames_fillbuf (l : List (Nat × Word)) : (s.setHostNames l).fillbuf = s.fillbuf := rfl
@[simp] theorem setHostNames_fill (l : List (Nat × Word)) : (s.setHostNames l).fill = s.fill := rfl
@[simp] theorem setHostNames_x (l : List (Nat × Word)) : (s.setHostNames l).x = s.x := rfl
@[simp] theorem setHostNames_w (l : List (Nat × Word)) : (s.setHostNames l).w = s.w := rfl
@[simp] theorem setHostNames_cphase (l : List (Nat × Word)) : (s.setHostNames l).cphase = s.cphase := rfl
@[simp] theorem setHostNames_stepNo (l : List (Nat × Word)) : (s.setHostNames l).stepNo = s.stepNo := rfl
@[simp] theorem setHostNames_dstate (l : List (Nat × Word)) : (s.setHostNames l).dstate = s.dstate := rfl
@[simp] theorem setHostNames_err (l : List (Nat × Word)) : (s.setHostNames l).err = s.err := rfl
@[simp] theorem setHostNames_errcode (l : List (Nat × Word)) : (s.setHostNames l).errcode = s.errcode := rfl
@[simp] theorem setHostNames_errcmd (l : List (Nat × Word)) : (s.setHostNames l).errcmd = s.errcmd := rfl
@[simp] theorem setHostNames_data (l : List (Nat × Word)) : (s.setHostNames l).data = s.data := rfl
@[simp] theorem setHostNames_hostProg (l : List (Nat × Word)) : (s.setHostNames l).hostProg = s.hostProg := rfl
@[simp] theorem setHostNames_hostPc (l : List (Nat × Word)) : (s.setHostNames l).hostPc = s.hostPc := rfl
@[simp] theorem setHostNames_hostNames (l : List (Nat × Word)) : (s.setHostNames l).hostNames = l := rfl
@[simp] theorem setHostNames_schedule (l : List (Nat × Word)) : (s.setHostNames l).schedule = s.schedule := rfl
@[simp] theorem setHostNames_freeIdx (l : List (Nat × Word)) : (s.setHostNames l).freeIdx = s.freeIdx := rfl

@[simp] theorem setSchedule_acc (l : List Turn) : (s.setSchedule l).acc = s.acc := rfl
@[simp] theorem setSchedule_bitcntLo (l : List Turn) : (s.setSchedule l).bitcntLo = s.bitcntLo := rfl
@[simp] theorem setSchedule_bitcntHi (l : List Turn) : (s.setSchedule l).bitcntHi = s.bitcntHi := rfl
@[simp] theorem setSchedule_fillbuf (l : List Turn) : (s.setSchedule l).fillbuf = s.fillbuf := rfl
@[simp] theorem setSchedule_fill (l : List Turn) : (s.setSchedule l).fill = s.fill := rfl
@[simp] theorem setSchedule_x (l : List Turn) : (s.setSchedule l).x = s.x := rfl
@[simp] theorem setSchedule_w (l : List Turn) : (s.setSchedule l).w = s.w := rfl
@[simp] theorem setSchedule_cphase (l : List Turn) : (s.setSchedule l).cphase = s.cphase := rfl
@[simp] theorem setSchedule_stepNo (l : List Turn) : (s.setSchedule l).stepNo = s.stepNo := rfl
@[simp] theorem setSchedule_dstate (l : List Turn) : (s.setSchedule l).dstate = s.dstate := rfl
@[simp] theorem setSchedule_err (l : List Turn) : (s.setSchedule l).err = s.err := rfl
@[simp] theorem setSchedule_errcode (l : List Turn) : (s.setSchedule l).errcode = s.errcode := rfl
@[simp] theorem setSchedule_errcmd (l : List Turn) : (s.setSchedule l).errcmd = s.errcmd := rfl
@[simp] theorem setSchedule_data (l : List Turn) : (s.setSchedule l).data = s.data := rfl
@[simp] theorem setSchedule_hostProg (l : List Turn) : (s.setSchedule l).hostProg = s.hostProg := rfl
@[simp] theorem setSchedule_hostPc (l : List Turn) : (s.setSchedule l).hostPc = s.hostPc := rfl
@[simp] theorem setSchedule_hostNames (l : List Turn) : (s.setSchedule l).hostNames = s.hostNames := rfl
@[simp] theorem setSchedule_schedule (l : List Turn) : (s.setSchedule l).schedule = l := rfl
@[simp] theorem setSchedule_freeIdx (l : List Turn) : (s.setSchedule l).freeIdx = s.freeIdx := rfl

@[simp] theorem setFreeIdx_acc (n : Nat) : (s.setFreeIdx n).acc = s.acc := rfl
@[simp] theorem setFreeIdx_bitcntLo (n : Nat) : (s.setFreeIdx n).bitcntLo = s.bitcntLo := rfl
@[simp] theorem setFreeIdx_bitcntHi (n : Nat) : (s.setFreeIdx n).bitcntHi = s.bitcntHi := rfl
@[simp] theorem setFreeIdx_fillbuf (n : Nat) : (s.setFreeIdx n).fillbuf = s.fillbuf := rfl
@[simp] theorem setFreeIdx_fill (n : Nat) : (s.setFreeIdx n).fill = s.fill := rfl
@[simp] theorem setFreeIdx_x (n : Nat) : (s.setFreeIdx n).x = s.x := rfl
@[simp] theorem setFreeIdx_w (n : Nat) : (s.setFreeIdx n).w = s.w := rfl
@[simp] theorem setFreeIdx_cphase (n : Nat) : (s.setFreeIdx n).cphase = s.cphase := rfl
@[simp] theorem setFreeIdx_stepNo (n : Nat) : (s.setFreeIdx n).stepNo = s.stepNo := rfl
@[simp] theorem setFreeIdx_dstate (n : Nat) : (s.setFreeIdx n).dstate = s.dstate := rfl
@[simp] theorem setFreeIdx_err (n : Nat) : (s.setFreeIdx n).err = s.err := rfl
@[simp] theorem setFreeIdx_errcode (n : Nat) : (s.setFreeIdx n).errcode = s.errcode := rfl
@[simp] theorem setFreeIdx_errcmd (n : Nat) : (s.setFreeIdx n).errcmd = s.errcmd := rfl
@[simp] theorem setFreeIdx_data (n : Nat) : (s.setFreeIdx n).data = s.data := rfl
@[simp] theorem setFreeIdx_hostProg (n : Nat) : (s.setFreeIdx n).hostProg = s.hostProg := rfl
@[simp] theorem setFreeIdx_hostPc (n : Nat) : (s.setFreeIdx n).hostPc = s.hostPc := rfl
@[simp] theorem setFreeIdx_hostNames (n : Nat) : (s.setFreeIdx n).hostNames = s.hostNames := rfl
@[simp] theorem setFreeIdx_schedule (n : Nat) : (s.setFreeIdx n).schedule = s.schedule := rfl
@[simp] theorem setFreeIdx_freeIdx (n : Nat) : (s.setFreeIdx n).freeIdx = n := rfl

end Sys2Proof.Machine.State
end

