-- ==== Sys2Proof/Laws/Ops.lean ====
section
/-! SUPPORT. What each shared operation over the engine's state can do, said once: command errors and the checks
before a command's effect, absorption, the bit counter, the start and the end of a compression, the engine's turn. -/

namespace Sys2Proof.Machine

/-! ## Command errors and checks (R100, R203, R204) -/

theorem raiseCmdError_eq (code : ErrCode) (v : Word) (s : State) : raiseCmdError code v s = errorRecorded code v s :=
  rfl

theorem clearCmdError_eq (s : State) : clearCmdError s = { s with err := false, errcode := .none, errcmd := 0 } := rfl

theorem errorRecorded_of_err {code : ErrCode} {v : Word} {s : State} (h : s.err = true) :
    errorRecorded code v s = s := by rw [errorRecorded, if_pos h]

theorem errorRecorded_of_no_err {code : ErrCode} {v : Word} {s : State} (h : s.err = false) :
    errorRecorded code v s = { s with err := true, errcode := code, errcmd := v } := by
  simp [errorRecorded, h]

/-- A command error writes the three error registers and nothing else. -/
theorem errorRecorded_frame (code : ErrCode) (v : Word) (s : State) :
    errorRecorded code v s = { s with
      err := (errorRecorded code v s).err, errcode := (errorRecorded code v s).errcode,
      errcmd := (errorRecorded code v s).errcmd } := by
  unfold errorRecorded; split <;> rfl

theorem acceptWhenIdle_of_idle {v : Word} {body : State → State} {s : State} (h : s.cphase = .idle) :
    acceptWhenIdle v body s = body s := by simp [acceptWhenIdle, State.busy, h]

theorem acceptWhenIdle_of_run {v : Word} {body : State → State} {s : State} (h : s.cphase = .run) :
    acceptWhenIdle v body s = errorRecorded .busy v s := by
  simp [acceptWhenIdle, State.busy, h, raiseCmdError_eq]

theorem requireMessage_of_uninit {v : Word} {body : State → State} {s : State} (h : s.dstate = .uninit) :
    requireMessage v body s = errorRecorded .notInit v s := by simp [requireMessage, h, raiseCmdError_eq]

theorem requireMessage_of_finalized {v : Word} {body : State → State} {s : State} (h : s.dstate = .finalized) :
    requireMessage v body s = errorRecorded .afterFinal v s := by simp [requireMessage, h, raiseCmdError_eq]

theorem requireMessage_of_open {v : Word} {body : State → State} {s : State} (h : s.dstate ≠ .uninit)
    (h' : s.dstate ≠ .finalized) : requireMessage v body s = body s := by
  cases hd : s.dstate <;> simp_all [requireMessage]

/-! ## Octets (R59, R83) -/

@[simp] theorem operandOctets_length (s : State) (n : Nat) : (operandOctets s n).length = n := by
  simp [operandOctets]

theorem operandOctets_getD {s : State} {n i : Nat} (h : i < n) : (operandOctets s n).getD i 0 = octetOf s.data i := by
  simp [operandOctets, h, operandOctet]

theorem octetOf_toNat (v : Word) (k : Nat) : (octetOf v k).toNat = v.toNat / 2 ^ (8 * k) % 256 := by
  simp [octetOf, Nat.shiftRight_eq_div_pow]

/-! ## Absorption (R110, R111) -/

theorem startCompress_eq (blk : BlockWords) (s : State) :
    startCompress blk s = { s with x := blk, w := s.acc, cphase := .run, stepNo := 0 } := rfl

/-- An octet that does not complete the block. -/
theorem absorb_within {o : Octet} {s : State} (h : s.fill.toNat + 1 < 192) :
    absorb o s =
      { s with fillbuf := s.fillbuf.setIfInBounds s.fill.toNat o, fill := s.fill + 1 } := by
  have hne : s.fill + 1 ≠ 192 := by
    intro h2
    have := congrArg BitVec.toNat h2
    simp [BitVec.toNat_add] at this
    omega
  unfold absorb
  simp only [State.setFill_fill, hne, if_false]
  rfl

/-- The octet that completes the block starts the compression. -/
theorem absorb_completing {o : Octet} {s : State} (h : s.fill.toNat = 191) :
    absorb o s =
      { s with
        fillbuf := s.fillbuf.setIfInBounds s.fill.toNat o, fill := 0,
        x := adapter (s.fillbuf.setIfInBounds s.fill.toNat o), w := s.acc, cphase := .run, stepNo := 0 } := by
  have he : s.fill + 1 = 192 := by
    apply BitVec.eq_of_toNat_eq
    simp [BitVec.toNat_add, h]
  unfold absorb
  simp only [State.setFill_fill, he, if_true]
  rfl

theorem absorbList_append (a b : List Octet) (s : State) :
    absorbList (a ++ b) s = absorbList b (absorbList a s) := by
  induction a generalizing s with
  | nil => rfl
  | cons o os ih => exact ih _

/-- Octets that do not complete the block: they stand after those buffered, and nothing but FILLBUF and FILL
changes. -/
theorem absorbList_within (os : List Octet) (s : State) (h : s.fill.toNat + os.length < 192) :
    absorbList os s = { s with fillbuf := (absorbList os s).fillbuf, fill := (absorbList os s).fill } ∧
    (absorbList os s).fill.toNat = s.fill.toNat + os.length ∧
    ∀ i (hi : i < 192), (absorbList os s).fillbuf[i] =
      if s.fill.toNat ≤ i ∧ i < s.fill.toNat + os.length then os.getD (i - s.fill.toNat) 0 else s.fillbuf[i] := by
  induction os generalizing s with
  | nil =>
    refine ⟨rfl, rfl, fun i hi => ?_⟩
    rw [if_neg (by simp)]
    rfl
  | cons o os ih =>
    simp only [List.length_cons] at h
    have h1 : (s.fill + 1).toNat = s.fill.toNat + 1 := by simp [BitVec.toNat_add]; omega
    have e := absorb_within (o := o) (s := s) (by omega)
    have hf : (absorb o s).fill.toNat = s.fill.toNat + 1 := by rw [e]; exact h1
    have hb : (absorb o s).fillbuf = s.fillbuf.setIfInBounds s.fill.toNat o := by rw [e]
    obtain ⟨a, b, c⟩ := ih (absorb o s) (by omega)
    refine ⟨?_, ?_, fun i hi => ?_⟩
    · change absorbList os (absorb o s) = { s with
        fillbuf := (absorbList os (absorb o s)).fillbuf, fill := (absorbList os (absorb o s)).fill }
      generalize absorbList os (absorb o s) = T at a
      refine a.trans ?_
      rw [e]
    · show (absorbList os (absorb o s)).fill.toNat = _
      rw [b, hf, List.length_cons]
      omega
    · show (absorbList os (absorb o s)).fillbuf[i] = _
      rw [c i hi, hf]
      simp only [hb, List.length_cons]
      rw [Vector.getElem_setIfInBounds]
      by_cases h2 : s.fill.toNat = i
      · subst h2; simp
      simp only [h2, if_false]
      by_cases h3 : s.fill.toNat + 1 ≤ i ∧ i < s.fill.toNat + 1 + os.length
      · rw [if_pos h3, if_pos (by omega)]
        obtain ⟨k, rfl⟩ : ∃ k, i = s.fill.toNat + 1 + k := ⟨i - (s.fill.toNat + 1), by omega⟩
        rw [show s.fill.toNat + 1 + k - (s.fill.toNat + 1) = k by omega,
          show s.fill.toNat + 1 + k - s.fill.toNat = k + 1 by omega]
        simp
      · rw [if_neg h3, if_neg (by omega)]

/-- Octets that complete the block: block `b` is handed to the compression unit, and those left over start the next
block. -/
theorem absorbList_crossing (os : List Octet) (s : State) (h : s.fill.toNat ≤ 191)
    (h1 : 192 ≤ s.fill.toNat + os.length) (h2 : os.length ≤ 192) :
    ∃ b : Block,
      (∀ i (hi : i < 192), b[i] =
        if s.fill.toNat ≤ i then os.getD (i - s.fill.toNat) 0 else s.fillbuf[i]) ∧
      absorbList os s = { s with
        x := adapter b, w := s.acc, cphase := .run, stepNo := 0,
        fillbuf := (absorbList os s).fillbuf, fill := (absorbList os s).fill } ∧
      (absorbList os s).fill.toNat = s.fill.toNat + os.length - 192 ∧
      ∀ i (hi : i < 192), (absorbList os s).fillbuf[i] =
        if i < s.fill.toNat + os.length - 192 then os.getD (192 - s.fill.toNat + i) 0 else b[i] := by
  obtain ⟨o, rest, hos, hlen⟩ : ∃ o rest, os = os.take (191 - s.fill.toNat) ++ o :: rest ∧
      rest.length = s.fill.toNat + os.length - 192 := by
    have hd : os.drop (191 - s.fill.toNat) ≠ [] := by
      intro h
      have := congrArg List.length h
      simp at this
      omega
    obtain ⟨o, rest, hr⟩ := List.exists_cons_of_ne_nil hd
    refine ⟨o, rest, by rw [← hr, List.take_append_drop], ?_⟩
    have := congrArg List.length hr
    simp at this
    omega
  generalize hpre : os.take (191 - s.fill.toNat) = pre at hos
  have hprel : pre.length = 191 - s.fill.toNat := by rw [← hpre, List.length_take]; omega
  obtain ⟨a1, b1, c1⟩ := absorbList_within pre s (by omega)
  have e2 := absorb_completing (o := o) (s := absorbList pre s) (by omega)
  have hf2 : (absorb o (absorbList pre s)).fill.toNat = 0 := by rw [e2]; rfl
  obtain ⟨a3, b3, c3⟩ := absorbList_within rest (absorb o (absorbList pre s)) (by omega)
  have hx : absorbList os s = absorbList rest (absorb o (absorbList pre s)) := by
    rw [hos, absorbList_append]; rfl
  have hfb : (absorb o (absorbList pre s)).fillbuf =
      (absorbList pre s).fillbuf.setIfInBounds (absorbList pre s).fill.toNat o := by rw [e2]
  refine ⟨(absorbList pre s).fillbuf.setIfInBounds (absorbList pre s).fill.toNat o, ?_, ?_, ?_, ?_⟩
  · intro i hi
    rw [Vector.getElem_setIfInBounds]
    by_cases h3 : (absorbList pre s).fill.toNat = i
    · rw [if_pos h3, if_pos (by omega), hos, List.getD_append_right _ _ _ _ (by omega),
        show i - s.fill.toNat - pre.length = 0 by omega]
      simp
    · rw [if_neg h3, c1 i hi]
      by_cases h4 : s.fill.toNat ≤ i
      · rw [if_pos (by omega), if_pos h4, hos, List.getD_append _ _ _ _ (by omega)]
      · rw [if_neg (by omega), if_neg h4]
  · rw [hx, a3, e2, a1]
  · rw [hx, b3, hf2]; omega
  · intro i hi
    simp only [hx]
    rw [c3 i hi]
    simp only [hf2, hfb]
    by_cases h3 : i < s.fill.toNat + os.length - 192
    · rw [if_pos (by omega), if_pos h3, hos, List.getD_append_right _ _ _ _ (by omega),
        show 192 - s.fill.toNat + i - pre.length = i + 1 by omega]
      simp
    · rw [if_neg (by omega), if_neg h3]

/-- Absorption writes only the fill buffer, FILL and the compression unit's own registers. -/
theorem absorbList_frame (os : List Octet) (s : State) :
    absorbList os s = { s with
      fillbuf := (absorbList os s).fillbuf, fill := (absorbList os s).fill, x := (absorbList os s).x,
      w := (absorbList os s).w, cphase := (absorbList os s).cphase, stepNo := (absorbList os s).stepNo } := by
  induction os generalizing s with
  | nil => rfl
  | cons o os ih =>
    have h := ih (absorb o s)
    have ha : absorb o s = { s with
        fillbuf := (absorb o s).fillbuf, fill := (absorb o s).fill, x := (absorb o s).x,
        w := (absorb o s).w, cphase := (absorb o s).cphase, stepNo := (absorb o s).stepNo } := by
      unfold absorb
      dsimp only
      split <;> rfl
    show absorbList os (absorb o s) = { s with
      fillbuf := (absorbList os (absorb o s)).fillbuf, fill := (absorbList os (absorb o s)).fill,
      x := (absorbList os (absorb o s)).x, w := (absorbList os (absorb o s)).w,
      cphase := (absorbList os (absorb o s)).cphase, stepNo := (absorbList os (absorb o s)).stepNo }
    generalize absorbList os (absorb o s) = T at h
    refine h.trans ?_
    rw [ha]

/-! ## The bit counter (R104) -/

theorem bitCountAdd_eq (d : Word) (s : State) :
    bitCountAdd d s = { s with
      bitcntLo := s.bitcntLo + d,
      bitcntHi := if s.bitcntLo + d < d then s.bitcntHi + 1 else s.bitcntHi } := rfl

/-! ## FINALIZE and the end of a compression (R106, R107, R150) -/

theorem finalizeEffect_of_empty {s : State} (h : s.fill = 0) :
    finalizeEffect s = { s with
      x := adapter (padBlock s.bitcntHi s.bitcntLo), w := s.acc, cphase := .run, stepNo := 0, dstate := .finPad } := by
  simp only [finalizeEffect, h, if_true, startPadding, startCompress, State.setX, State.setW, State.setSeq,
    State.setDState]

theorem finalizeEffect_of_partial {s : State} (h : s.fill ≠ 0) :
    finalizeEffect s = { s with
      x := adapter (zeroFill s.fillbuf s.fill.toNat), w := s.acc, cphase := .run, stepNo := 0, fill := 0,
      dstate := .finData } := by
  simp only [finalizeEffect, h, if_false, startPartial, startCompress, State.setX, State.setW, State.setSeq,
    State.setDState, State.setFill]

theorem feedForward_eq (s : State) :
    feedForward s = onCompressDone { s with acc := addSix s.acc s.w, cphase := .idle, stepNo := 0 } := rfl

theorem feedForward_of_finData {s : State} (h : s.dstate = .finData) :
    feedForward s = { s with
      acc := addSix s.acc s.w, w := addSix s.acc s.w, cphase := .run, stepNo := 0, dstate := .finPad,
      x := adapter (padBlock s.bitcntHi s.bitcntLo) } := by
  rw [feedForward_eq]
  unfold onCompressDone
  simp only [h]
  simp only [startPadding, startCompress, State.setX, State.setW, State.setSeq, State.setDState]

theorem feedForward_of_finPad {s : State} (h : s.dstate = .finPad) :
    feedForward s = { s with acc := addSix s.acc s.w, cphase := .idle, stepNo := 0, dstate := .finalized } := by
  rw [feedForward_eq]
  unfold onCompressDone
  simp only [h]
  rfl

theorem feedForward_of_other {s : State} (h : s.dstate ≠ .finData) (h' : s.dstate ≠ .finPad) :
    feedForward s = { s with acc := addSix s.acc s.w, cphase := .idle, stepNo := 0 } := by
  rw [feedForward_eq]
  unfold onCompressDone
  cases hd : s.dstate <;> simp_all

@[simp] theorem feedForward_acc (s : State) : (feedForward s).acc = addSix s.acc s.w := by
  by_cases h : s.dstate = .finData
  · rw [feedForward_of_finData h]
  by_cases h' : s.dstate = .finPad
  · rw [feedForward_of_finPad h']
  rw [feedForward_of_other h h']

theorem addSix_getElem (a w : Six) (i : Nat) (h : i < 6) : (addSix a w)[i] = a[i] + w[i] := by simp [addSix]

/-! ## The engine's turn (R151) -/

theorem engineTurn_of_idle (p : EngineParams) {s : State} (h : s.cphase = .idle) : engineTurn p s = .next s := by
  simp [engineTurn, h]

theorem engineTurn_of_mixing (p : EngineParams) {s : State} (h : s.cphase = .run) (h' : s.stepNo.toNat < 192) :
    engineTurn p s = .next { s with
      w := mixBody p ⟨s.stepNo.toNat, h'⟩ s.w s.x, stepNo := s.stepNo + 1 } := by
  simp only [engineTurn, h, h', dif_pos, mixStep, State.setSeq, State.setW]

theorem engineTurn_of_done (p : EngineParams) {s : State} (h : s.cphase = .run) (h' : s.stepNo = 192) :
    engineTurn p s = .next (feedForward s) := by
  unfold engineTurn
  rw [h, h']
  rfl

@[simp] theorem andThen_next (s : State) (f : State → Result) : Result.andThen (.next s) f = f s := rfl

theorem andThen_assoc (r : Result) (f g : State → Result) :
    Result.andThen (Result.andThen r f) g = Result.andThen r fun s => Result.andThen (f s) g := by
  cases r <;> rfl

theorem engineRun_add (p : EngineParams) (j k : Nat) (s : State) :
    engineRun p (j + k) s = Result.andThen (engineRun p j s) (engineRun p k) := by
  induction j generalizing s with
  | zero => simp [engineRun]
  | succ j ih =>
    rw [show j + 1 + k = (j + k) + 1 by omega, engineRun, engineRun, andThen_assoc]
    congr 1
    funext t
    exact ih t

theorem engineRun_succ (p : EngineParams) (k : Nat) (s : State) :
    engineRun p (k + 1) s = Result.andThen (engineRun p k s) (engineTurn p) := by
  rw [engineRun_add]
  congr 1
  funext t
  simp only [engineRun]
  cases engineTurn p t <;> rfl

end Sys2Proof.Machine
end

