-- ==== Sys2Proof/Laws/PerInstr.lean ====
section
/-! SUPPORT. Statements made of every command, one lemma per constructor of `Instr`. -/

namespace Sys2Proof.Laws

/-- Mask and match of the command's row in spec/opcode_table.json. -/
def tableRow : Instr → Word × Word
  | .nop => (0xFFFFFFFF, 0x00000000)
  | .init => (0xFFFFFFFF, 0x00000001)
  | .append _ => (0xFFFFFF8F, 0x00000002)
  | .finalize => (0xFFFFFFFF, 0x00000003)
  | .clrerr => (0xFFFFFFFF, 0x00000004)

/-- The encoder's word agrees with the fixed bits of the command's row (R82). -/
def TableRow.Statement (i : Instr) : Prop := encode i &&& (tableRow i).1 = (tableRow i).2

theorem TableRow.nop : TableRow.Statement .nop := by unfold TableRow.Statement; decide

theorem TableRow.init : TableRow.Statement .init := by unfold TableRow.Statement; decide

theorem TableRow.append (nbytes : BitVec 3) : TableRow.Statement (.append nbytes) := by
  unfold TableRow.Statement
  revert nbytes
  decide

theorem TableRow.finalize : TableRow.Statement .finalize := by unfold TableRow.Statement; decide

theorem TableRow.clrerr : TableRow.Statement .clrerr := by unfold TableRow.Statement; decide

end Sys2Proof.Laws
end

