-- ==== Sys2Proof/Laws/Step.lean ====
section
/-! SUPPORT. What a turn, a host line, a command and a step can do: the case analyses that every claim about all
steps goes through, and the laws of the host's names. -/

namespace Sys2Proof.Machine

/-! ## Host names (R88) -/

theorem nameValue_bindName (name : Nat) (v : Word) (l : List (Nat × Word)) :
    nameValue name (bindName name v l) = v := by
  induction l with
  | nil => simp [bindName, nameValue]
  | cons e l ih =>
    obtain ⟨n, u⟩ := e
    simp only [bindName]
    split
    · simp [nameValue]
    split
    · simp [nameValue]
    · simp only [nameValue]
      rw [if_neg (by omega)]
      exact ih

theorem nameValue_bindName_of_ne {name other : Nat} (h : other ≠ name) (v : Word) (l : List (Nat × Word)) :
    nameValue other (bindName name v l) = nameValue other l := by
  induction l with
  | nil => simp [bindName, nameValue, h.symm]
  | cons e l ih =>
    obtain ⟨n, u⟩ := e
    simp only [bindName]
    split
    · simp [nameValue, h.symm]
    split
    · rename_i h1
      subst h1
      simp [nameValue, h.symm]
    · simp only [nameValue, ih]

theorem mem_bindName {name : Nat} {v : Word} {l : List (Nat × Word)} {e : Nat × Word}
    (h : e ∈ bindName name v l) : e = (name, v) ∨ e ∈ l := by
  induction l with
  | nil => simpa [bindName] using h
  | cons e' l ih =>
    obtain ⟨n, u⟩ := e'
    simp only [bindName] at h
    split at h
    · simpa using h
    split at h
    · rcases List.mem_cons.1 h with h | h
      · exact .inl h
      · exact .inr (List.mem_cons_of_mem _ h)
    · rcases List.mem_cons.1 h with h | h
      · exact .inr (h ▸ List.mem_cons_self)
      · exact (ih h).imp_right (List.mem_cons_of_mem _)

/-- Binding a name keeps the names strictly rising. -/
theorem bindName_sorted (name : Nat) (v : Word) {l : List (Nat × Word)} (h : NamesSorted l) :
    NamesSorted (bindName name v l) := by
  induction l with
  | nil => simp [NamesSorted, bindName]
  | cons e l ih =>
    obtain ⟨n, u⟩ := e
    simp only [NamesSorted, List.map_cons, List.pairwise_cons, List.mem_map] at h
    obtain ⟨hn, hl⟩ := h
    simp only [bindName]
    split
    · rename_i hlt
      simp only [NamesSorted, List.map_cons, List.pairwise_cons, List.mem_cons, List.mem_map]
      refine ⟨?_, fun a ha => hn a ha, hl⟩
      rintro a (rfl | ha)
      · exact hlt
      · exact hlt.trans (hn a ha)
    split
    · rename_i heq
      subst heq
      simp only [NamesSorted, List.map_cons, List.pairwise_cons, List.mem_map]
      exact ⟨fun a ha => hn a ha, hl⟩
    · simp only [NamesSorted, List.map_cons, List.pairwise_cons, List.mem_map]
      refine ⟨?_, ih hl⟩
      rintro a ⟨e, he, rfl⟩
      rcases mem_bindName he with rfl | he
      · show n < name
        omega
      · exact hn _ ⟨e, he, rfl⟩

/-! ## The state of the engine (R20) -/

theorem SameEngine.refl (s : State) : SameEngine s s :=
  ⟨rfl, rfl, rfl, rfl, rfl, rfl, rfl, rfl, rfl, rfl, rfl, rfl, rfl, rfl⟩

theorem SameEngine.trans {s t u : State} (h : SameEngine s t) (h' : SameEngine t u) : SameEngine s u := by
  obtain ⟨a1, a2, a3, a4, a5, a6, a7, a8, a9, a10, a11, a12, a13, a14⟩ := h
  obtain ⟨b1, b2, b3, b4, b5, b6, b7, b8, b9, b10, b11, b12, b13, b14⟩ := h'
  exact ⟨b1.trans a1, b2.trans a2, b3.trans a3, b4.trans a4, b5.trans a5, b6.trans a6, b7.trans a7, b8.trans a8,
    b9.trans a9, b10.trans a10, b11.trans a11, b12.trans a12, b13.trans a13, b14.trans a14⟩

/-- Choosing whose turn it is touches no state of the engine. -/
theorem takeTurn_sameEngine (s : State) : SameEngine s (takeTurn s) := by
  unfold takeTurn
  split
  · exact SameEngine.refl s
  · split <;> exact SameEngine.refl s

@[simp] theorem nextHostOp_takeTurn (s : State) : nextHostOp (takeTurn s) = nextHostOp s := by
  unfold takeTurn
  split
  · rfl
  · split <;> rfl

/-- A host line starts from here: its turn taken and the host on its next line. -/
theorem advanceHost_takeTurn_sameEngine (s : State) : SameEngine s (advanceHost (takeTurn s)) :=
  takeTurn_sameEngine s

theorem step_of_host {s : State} {l : List Turn} (h : s.schedule = .host :: l) :
    step s = hostTurn (s.setSchedule l) := by simp [step, nextTurn, takeTurn, h]

theorem step_of_engine {s : State} {l : List Turn} (h : s.schedule = .engine :: l) :
    step s = engineTurn Config.engine (s.setSchedule l) := by simp [step, nextTurn, takeTurn, h]

/-- `HostMoves` is the host's turn, whichever way it came. -/
theorem hostMoves_iff {s u : State} : HostMoves s u ↔ nextTurn s = .host ∧ u = takeTurn s := by
  unfold HostMoves nextTurn takeTurn
  cases hs : s.schedule with
  | cons t l => cases t <;> simp [State.setSchedule]
  | nil =>
    cases he : engineReady s with
    | false => simp
    | true =>
      cases hh : hostReady s <;> cases hf : Config.engineFirst s.freeIdx <;> simp [State.setFreeIdx, hs]

/-- On its turn the host performs its next line. -/
theorem step_of_hostMoves {s u : State} (h : HostMoves s u) : step s = hostTurn u ∧ nextHostOp u = nextHostOp s := by
  obtain ⟨hn, rfl⟩ := hostMoves_iff.1 h
  exact ⟨by unfold step; rw [hn], nextHostOp_takeTurn s⟩

/-- Taking the turn changes neither the engine nor the host. -/
theorem hostMoves_frame {s u : State} (h : HostMoves s u) :
    SameEngine s u ∧ u.hostProg = s.hostProg ∧ u.hostPc = s.hostPc ∧ u.hostNames = s.hostNames := by
  rcases h with ⟨l, -, rfl⟩ | ⟨-, -, rfl⟩ | ⟨-, -, -, -, rfl⟩ <;> exact ⟨SameEngine.refl _, rfl, rfl, rfl⟩

theorem feedForward_sameHost (s : State) : SameHost s (feedForward s) := by
  by_cases h : s.dstate = .finData
  · rw [feedForward_of_finData h]; exact ⟨rfl, rfl, rfl, rfl, rfl⟩
  by_cases h' : s.dstate = .finPad
  · rw [feedForward_of_finPad h']; exact ⟨rfl, rfl, rfl, rfl, rfl⟩
  rw [feedForward_of_other h h']
  exact ⟨rfl, rfl, rfl, rfl, rfl⟩

/-- What a read returns is the engine's alone. -/
theorem regRead_of_sameEngine {s t : State} (h : SameEngine s t) (r : Reg) : regRead r t = regRead r s := by
  obtain ⟨a1, a2, a3, a4, a5, a6, a7, a8, a9, a10, a11, a12, a13, a14⟩ := h
  cases r <;> simp only [regRead, statusWord, errInfoWord, State.digestValid, a1, a2, a3, a5, a8, a9, a10, a11, a12,
    a13, a14]

/-! ## Commands (R100) -/

/-- Everything an accepted or rejected command of the command set can do. -/
theorem exec_cases {i : Instr} {s t : State} (h : exec i s = .next t) :
    (t = s ∧ (i = .nop ∨ i = .append 0)) ∨
    (t = errorRecorded .illegalCmd (encode i) s ∧ i.wellFormed = false) ∨
    (t = errorRecorded .busy (encode i) s ∧ s.cphase = .run) ∨
    (t = errorRecorded .notInit (encode i) s ∧ s.cphase = .idle ∧ s.dstate = .uninit ∧
      (i = .finalize ∨ ∃ n, i = .append n)) ∨
    (t = errorRecorded .afterFinal (encode i) s ∧ s.cphase = .idle ∧ s.dstate = .finalized ∧
      (i = .finalize ∨ ∃ n, i = .append n)) ∨
    (t = initEffect s ∧ s.cphase = .idle ∧ i = .init) ∨
    (s.cphase = .idle ∧ s.dstate ≠ .uninit ∧ s.dstate ≠ .finalized ∧
      ∃ n, i = .append n ∧ 1 ≤ n.toNat ∧ n.toNat ≤ 4 ∧ t = appendEffect n.toNat s) ∨
    (s.cphase = .idle ∧ s.dstate ≠ .uninit ∧ s.dstate ≠ .finalized ∧ i = .finalize ∧ t = finalizeEffect s) ∨
    (t = clearCmdError s ∧ s.cphase = .idle ∧ i = .clrerr) := by
  have key : ∀ {v : Word} {body : State → State}, .next (acceptWhenIdle v body s) = (.next t : Result) →
      (t = errorRecorded .busy v s ∧ s.cphase = .run) ∨ (s.cphase = .idle ∧ t = body s) := by
    intro v body h
    injection h with h
    cases hc : s.cphase with
    | idle => rw [acceptWhenIdle_of_idle hc] at h; exact .inr ⟨rfl, h.symm⟩
    | run => rw [acceptWhenIdle_of_run hc] at h; exact .inl ⟨h.symm, rfl⟩
  have open_cases : ∀ {v : Word} {body : State → State}, t = requireMessage v body s →
      (t = errorRecorded .notInit v s ∧ s.dstate = .uninit) ∨
      (t = errorRecorded .afterFinal v s ∧ s.dstate = .finalized) ∨
      (s.dstate ≠ .uninit ∧ s.dstate ≠ .finalized ∧ t = body s) := by
    intro v body h
    by_cases hu : s.dstate = .uninit
    · exact .inl ⟨h.trans (requireMessage_of_uninit hu), hu⟩
    by_cases hf : s.dstate = .finalized
    · exact .inr (.inl ⟨h.trans (requireMessage_of_finalized hf), hf⟩)
    · exact .inr (.inr ⟨hu, hf, h.trans (requireMessage_of_open hu hf)⟩)
  cases i with
  | nop =>
    rcases key h with ⟨ht, hc⟩ | ⟨hc, ht⟩
    · exact .inr (.inr (.inl ⟨ht, hc⟩))
    · exact .inl ⟨ht, .inl rfl⟩
  | init =>
    rcases key h with ⟨ht, hc⟩ | ⟨hc, ht⟩
    · exact .inr (.inr (.inl ⟨ht, hc⟩))
    · exact .inr (.inr (.inr (.inr (.inr (.inl ⟨ht, hc, rfl⟩)))))
  | clrerr =>
    rcases key h with ⟨ht, hc⟩ | ⟨hc, ht⟩
    · exact .inr (.inr (.inl ⟨ht, hc⟩))
    · exact .inr (.inr (.inr (.inr (.inr (.inr (.inr (.inr ⟨ht, hc, rfl⟩)))))))
  | finalize =>
    rcases key h with ⟨ht, hc⟩ | ⟨hc, ht⟩
    · exact .inr (.inr (.inl ⟨ht, hc⟩))
    rcases open_cases ht with ⟨ht, hd⟩ | ⟨ht, hd⟩ | ⟨hu, hf, ht⟩
    · exact .inr (.inr (.inr (.inl ⟨ht, hc, hd, .inl rfl⟩)))
    · exact .inr (.inr (.inr (.inr (.inl ⟨ht, hc, hd, .inl rfl⟩))))
    · exact .inr (.inr (.inr (.inr (.inr (.inr (.inr (.inl ⟨hc, hu, hf, rfl, ht⟩)))))))
  | append n =>
    by_cases h4 : n.toNat ≤ 4
    · simp only [exec, execAppend, h4, if_true] at h
      rcases key h with ⟨ht, hc⟩ | ⟨hc, ht⟩
      · exact .inr (.inr (.inl ⟨ht, hc⟩))
      by_cases h0 : n.toNat = 0
      · rw [if_pos h0] at ht
        refine .inl ⟨ht, .inr ?_⟩
        rw [show n = 0 from BitVec.eq_of_toNat_eq h0]
      rw [if_neg h0] at ht
      rcases open_cases ht with ⟨ht, hd⟩ | ⟨ht, hd⟩ | ⟨hu, hf, ht⟩
      · exact .inr (.inr (.inr (.inl ⟨ht, hc, hd, .inr ⟨n, rfl⟩⟩)))
      · exact .inr (.inr (.inr (.inr (.inl ⟨ht, hc, hd, .inr ⟨n, rfl⟩⟩))))
      · exact .inr (.inr (.inr (.inr (.inr (.inr (.inl ⟨hc, hu, hf, n, rfl, by omega, h4, ht⟩))))))
    · simp only [exec, execAppend, h4, if_false] at h
      injection h with h
      exact .inr (.inl ⟨h.symm, by simpa [Instr.wellFormed] using h4⟩)

/-- A command word is a command of the set or an illegal one. -/
theorem executeCommand_cases {v : Word} {s t : State} (h : executeCommand v s = .next t) :
    (∃ i, decode v = .ok i ∧ exec i s = .next t) ∨
    (∃ e, decode v = .error e ∧ t = errorRecorded .illegalCmd v s) := by
  unfold executeCommand at h
  cases hd : decode v with
  | ok i => rw [hd] at h; exact .inl ⟨i, rfl, h⟩
  | error e => rw [hd] at h; injection h with h; exact .inr ⟨e, rfl, h.symm⟩

/-! ## The window (R33, R51, R53) -/

theorem eq_zero_of_regAt_cmd {n : Nat} (h : regAt n = .cmd) : n = 0 := by
  unfold regAt at h
  by_contra hn
  simp only [hn, if_false] at h
  repeat (split at h; · cases h)
  cases h

theorem eq_four_of_regAt_data {n : Nat} (h : regAt n = .data) : n = 4 := by
  unfold regAt at h
  split at h
  · cases h
  by_contra hn
  simp only [hn, if_false] at h
  repeat (split at h; · cases h)
  cases h

theorem access_eq_of_admitted {a : Access} (h1 : a.inWindow = true) (h2 : a.admitted = true) {n : Nat}
    (h : a.off.toNat = n) : a = { off := n, bytes := 4 } := by
  obtain ⟨o, b⟩ := a
  simp [Access.inWindow, Access.admitted] at *
  omega

theorem acceptedCommand_eq_none {s : State}
    (h : ∀ a v, nextHostOp s = some (.write a v) → a.inWindow = true → a.admitted = true → a.reg ≠ .cmd) :
    acceptedCommand s = none := by
  unfold acceptedCommand
  split
  · rename_i a v _ hop
    split
    · rename_i hc
      simp at hc
      exact absurd hc.1.2 (h a v hop hc.1.1.1 hc.1.1.2)
    · rfl
  · rfl

/-! ## One step -/

/-- Everything a step can do to the engine: reset, one of the engine's transitions, or a host line that leaves the
engine alone, writes DATA, or submits a command. -/
theorem step_cases {s t : State} (h : step s = .next t) :
    (nextTurn s = .reset ∧ t = resetEngine (takeTurn s)) ∨
    (nextTurn s = .engine ∧ s.cphase = .idle ∧ t = takeTurn s) ∨
    (nextTurn s = .engine ∧ s.cphase = .run ∧ ∃ hn : s.stepNo.toNat < 192,
      t = { takeTurn s with
        w := mixBody Config.engine ⟨s.stepNo.toNat, hn⟩ s.w s.x, stepNo := s.stepNo + 1 }) ∨
    (nextTurn s = .engine ∧ s.cphase = .run ∧ s.stepNo = 192 ∧ t = feedForward (takeTurn s)) ∨
    (nextTurn s = .host ∧ SameEngine s t ∧ acceptedCommand s = none) ∨
    (nextTurn s = .host ∧ acceptedCommand s = none ∧
      ∃ v, nextHostOp s = some (.write { off := 4, bytes := 4 } v) ∧
        t = (advanceHost (takeTurn s)).setData v) ∨
    (nextTurn s = .host ∧ ∃ v, nextHostOp s = some (.write { off := 0, bytes := 4 } v) ∧
      executeCommand v (advanceHost (takeTurn s)) = .next t) := by
  have hse := advanceHost_takeTurn_sameEngine s
  obtain ⟨-, -, -, -, -, ef, eg, eh, ei, -⟩ := takeTurn_sameEngine s
  unfold step at h
  cases hn : nextTurn s with
  | reset => rw [hn] at h; injection h with h; exact .inl ⟨rfl, h.symm⟩
  | engine =>
    rw [hn] at h
    simp only [] at h
    unfold engineTurn at h
    cases hc : s.cphase with
    | idle => rw [eh, hc] at h; injection h with h; exact .inr (.inl ⟨rfl, rfl, h.symm⟩)
    | run =>
      rw [eh, hc] at h
      simp only [] at h
      split at h
      · rename_i hlt
        injection h with h
        refine .inr (.inr (.inl ⟨rfl, rfl, by rw [← ei]; exact hlt, ?_⟩))
        rw [← h]
        simp only [mixStep, State.setW, State.setSeq, ei, eg, ef]
      split at h
      · rename_i h192
        injection h with h
        exact .inr (.inr (.inr (.inl ⟨rfl, rfl, by rw [← ei]; exact h192, h.symm⟩)))
      · cases h
  | host =>
    rw [hn] at h
    simp only [hostTurn, nextHostOp_takeTurn] at h
    right; right; right; right
    have leaves : ∀ {u : State}, SameEngine (advanceHost (takeTurn s)) u → SameEngine s u := fun h => hse.trans h
    have none_of : (∀ a v, nextHostOp s ≠ some (.write a v)) → acceptedCommand s = none := fun hh =>
      acceptedCommand_eq_none fun a v hop => absurd hop (hh a v)
    cases hop : nextHostOp s with
    | none =>
      rw [hop] at h
      injection h with h
      exact .inl ⟨rfl, h ▸ takeTurn_sameEngine s, none_of fun a v hh => by rw [hop] at hh; cases hh⟩
    | some op =>
      rw [hop] at h
      cases op with
      | bnz name mask label =>
        injection h with h
        refine .inl ⟨rfl, ?_, none_of fun a v hh => by rw [hop] at hh; cases hh⟩
        rw [← h]
        unfold hostBranch
        split
        · exact hse
        · exact takeTurn_sameEngine s
      | read a name =>
        simp only [hostRead] at h
        refine .inl ⟨rfl, ?_, none_of fun a v hh => by rw [hop] at hh; cases hh⟩
        split at h
        · split at h
          · injection h with h; rw [← h]; exact leaves (SameEngine.refl _)
          · cases h
        · injection h with h; rw [← h]; exact leaves (SameEngine.refl _)
      | write a v =>
        simp only [hostWrite] at h
        split at h
        · rename_i hw
          split at h
          · rename_i hadm
            cases hr : a.reg with
            | cmd =>
              rw [hr] at h
              have ha := access_eq_of_admitted hw hadm (eq_zero_of_regAt_cmd hr)
              exact .inr (.inr ⟨rfl, v, by rw [ha]; rfl, h⟩)
            | data =>
              rw [hr] at h
              injection h with h
              have ha := access_eq_of_admitted hw hadm (eq_four_of_regAt_data hr)
              refine .inr (.inl ⟨rfl, ?_, v, by rw [ha]; rfl, h.symm⟩)
              refine acceptedCommand_eq_none fun a' v' hh _ _ => ?_
              rw [hop] at hh
              injection hh with hh
              injection hh with hh hh'
              rw [← hh, hr]
              decide
            | _ =>
              rw [hr] at h
              injection h with h
              refine .inl ⟨rfl, h ▸ hse, acceptedCommand_eq_none fun a' v' hh _ _ => ?_⟩
              rw [hop] at hh
              injection hh with hh
              injection hh with hh hh'
              rw [← hh, hr]
              exact Reg.noConfusion
          · cases h
        · rename_i hw
          injection h with h
          refine .inl ⟨rfl, h ▸ hse, acceptedCommand_eq_none fun a' v' hh hw' _ => ?_⟩
          rw [hop] at hh
          injection hh with hh
          injection hh with hh hh'
          subst hh
          exact absurd hw' hw

end Sys2Proof.Machine
end

