-- ==== Sys2Proof/Machine/HostNotation.lean ====
section
/-! DEFINITION. The host notation's pseudo-instructions and their expansions (spec/30_encoding.md R88, R89).  The
machine does not call these; they write host programs. -/

namespace Sys2Proof.Machine

/-- `wr CMD, v`. -/
def wrCmd (v : Word) : HostOp := .write (Access.word 0x00) v

/-- `wr DATA, v`. -/
def wrData (v : Word) : HostOp := .write (Access.word 0x04) v

/-- `nop` (R89). -/
def asmNop : List HostOp := [wrCmd 0x00000000]

/-- `init` (R89). -/
def asmInit : List HostOp := [wrCmd 0x00000001]

/-- `append n, v` (R89): DATA before CMD, the order R235 requires. -/
def asmAppend (n : Nat) (v : Word) : List HostOp := [wrData v, wrCmd (BitVec.ofNat 32 n <<< 4 ||| 0x2)]

/-- `finalize` (R89). -/
def asmFinalize : List HostOp := [wrCmd 0x00000003]

/-- `clrerr` (R89). -/
def asmClrerr : List HostOp := [wrCmd 0x00000004]

/-- `wait` (R89), written at line `here` and using `name`: read STATUS until BUSY is 0. -/
def asmWait (here name : Nat) : List HostOp := [.read (Access.word 0x08) name, .bnz name 0x1 here]

/-- `getdigest` (R89): six reads, in order, into the names from `name` up. -/
def asmGetDigest (name : Nat) : List HostOp :=
  (List.range 6).map fun i => .read (Access.word (0x20 + 4 * i)) (name + i)

end Sys2Proof.Machine
end

