-- ==== Sys2Proof/Tests/Slice0.lean ====
section
/-! SUPPORT. Small tests, their expected values taken from spec/95_test_vectors.md (a row is named S<n> as there) and
from the encoding of spec/30_encoding.md, and after them one witness for each obligation that has hypotheses. -/

open Sys2Proof Sys2Proof.Machine

namespace Sys2Proof.Tests

/-! ## States and results -/

/-- A message open with `fill` octets buffered (ABSORB, BUSY 0). -/
def absorbing (fill : BitVec 8) : State := { State.reset with dstate := .absorb, fill := fill }

/-- A compression at STEP = `n` in the STATE `d`. -/
def compressing (d : DState) (n : BitVec 8) : State :=
  { State.reset with dstate := d, cphase := .run, stepNo := n }

/-- A digest computed. -/
def finalized : State := { State.reset with dstate := .finalized }

/-- An error recorded earlier: NOT_INIT by 0x12. -/
def withError (s : State) : State := { s with err := true, errcode := .notInit, errcmd := 0x12 }

/-- The state with one host line to perform and the host's turn. -/
def withLine (op : HostOp) (s : State) : State := { s with hostProg := [op], hostPc := 0, schedule := [.host] }

/-- A property of the next state, false where there is none. -/
def onNext (P : State → Bool) : Result → Bool
  | .next s => P s
  | .fault _ => false
  | .refused _ => false

/-- Submits a command word and looks at STATUS, ERRINFO and ERRCMD. -/
def after (v : Word) (s : State) : Option (Word × Word × Word) :=
  match executeCommand v s with
  | .next t => some (regRead .status t, regRead .errinfo t, regRead .errcmd t)
  | .fault _ => none
  | .refused _ => none

/-! ## Encoding (30_encoding.md R81, R82, R84; 95 section 2.1) -/

theorem test_decode_nop : decode 0b00000000000000000000000000000000 = .ok .nop := by decide
theorem test_decode_init : decode 0b00000000000000000000000000000001 = .ok .init := by decide
theorem test_decode_append_0 : decode 0b00000000000000000000000000000010 = .ok (.append 0) := by decide
theorem test_decode_append_4 : decode 0b00000000000000000000000001000010 = .ok (.append 4) := by decide
theorem test_decode_finalize : decode 0b00000000000000000000000000000011 = .ok .finalize := by decide
theorem test_decode_clrerr : decode 0b00000000000000000000000000000100 = .ok .clrerr := by decide

theorem test_decode_illegal :
    decode 0x00000052 = .error (.nbytesTooLarge 5) ∧ decode 0x00000072 = .error (.nbytesTooLarge 7) ∧
    decode 0x00000013 = .error (.nbytesNotZero 3 1) ∧ decode 0x00000005 = .error (.reservedOp 5) ∧
    decode 0x0000000F = .error (.reservedOp 15) ∧ decode 0x00000080 = .error .reservedBits ∧
    decode 0x00000081 = .error .reservedBits ∧ decode 0x80000000 = .error .reservedBits ∧
    decode 0xFFFFFFFF = .error .reservedBits := by decide

theorem test_encode_append_3 : encode (.append 3) = 0x00000032 := by decide

theorem test_wellFormed_refuses_append_5 : (Instr.append 5).wellFormed = false := by decide
theorem test_wellFormed_accepts_append_4 : (Instr.append 4).wellFormed = true := by decide

theorem test_decodeTableWord : decodeTableWord 32 0x12 = some (.append 1) ∧ decodeTableWord 32 0x52 = none := by
  decide

/-! ## Commands and the state machine (95 section 2.2) -/

theorem test_S1_init_after_reset : after 0x00000001 State.reset = some (0x00000002, 0, 0) := by decide +kernel
theorem test_S2_S3_not_init :
    after 0x00000012 State.reset = some (0x00000020, 3, 0x00000012) ∧
    after 0x00000003 State.reset = some (0x00000020, 3, 0x00000003) := by decide +kernel
theorem test_S7_nop : after 0x00000000 (absorbing 3) = some (0x00000302, 0, 0) := by decide +kernel
theorem test_S8_init_discards : after 0x00000001 (absorbing 3) = some (0x00000002, 0, 0) := by decide +kernel
theorem test_S9_append_3 :
    onNext (fun t => t.fill == 3 && t.bitcntLo == 0x18 && t.fillbuf[2] == 0x63)
      (exec (.append 3) { absorbing 0 with data := 0x00636261 }) = true := by decide +kernel
theorem test_S12_append_4_over_the_end :
    onNext (fun t => regRead .status t == 0x00000203 && t.bitcntLo == 0x610 && t.fillbuf[1] == 0x64 &&
        t.x[47] == 0x62610000)
      (exec (.append 4) { absorbing 190 with bitcntLo := 0x5F0, data := 0x64636261 }) = true := by decide +kernel
theorem test_S14_illegal_before_busy :
    after 0x00000072 (compressing .absorb 5) = some (0x00050023, 1, 0x00000072) := by decide +kernel
theorem test_S16_S17_finalize :
    after 0x00000003 (absorbing 3) = some (0x00000005, 0, 0) ∧
    after 0x00000003 (absorbing 0) = some (0x00000007, 0, 0) := by decide +kernel
theorem test_S18_feedForward_finData :
    onNext (fun t => regRead .status t == 0x00000007)
      (engineTurn Config.engine (compressing .finData 192)) = true := by decide +kernel
theorem test_S19_feedForward_finPad :
    onNext (fun t => regRead .status t == 0x00000018)
      (engineTurn Config.engine (compressing .finPad 192)) = true := by decide +kernel
theorem test_S26_clrerr : after 0x00000004 (withError (absorbing 0)) = some (0x00000002, 0, 0) := by decide +kernel
theorem test_S27_S28_clrerr_while_busy :
    after 0x00000004 (withError (compressing .absorb 0)) = some (0x00000023, 3, 0x00000012) ∧
    after 0x00000004 (compressing .absorb 0) = some (0x00000023, 2, 0x00000004) := by decide +kernel

/-! ## Bit counter, padding, primitives (95 sections 2.3 to 2.5) -/

theorem test_bitCount_carry :
    (bitCountAdd 32 { State.reset with bitcntLo := 0xFFFFFFF0 }).bitCount = 0x0000000100000010 := by decide +kernel
theorem test_bitCount_wrap :
    (bitCountAdd 32 { State.reset with bitcntHi := 0xFFFFFFFF, bitcntLo := 0xFFFFFFF0 }).bitCount = 0x10 := by
  decide +kernel
theorem test_padBlock_words :
    (adapter (padBlock 0x01234567 0x89ABCDEF))[0] = 0x000000AA ∧
    (adapter (padBlock 0x01234567 0x89ABCDEF))[46] = 0x67452301 ∧
    (adapter (padBlock 0x01234567 0x89ABCDEF))[47] = 0xEFCDAB89 := by decide +kernel
theorem test_primitives :
    rol32 0x80000001 1 = 0x00000003 ∧ ror32 0x80000001 1 = 0xC0000000 ∧ rol32 0x12345678 0 = 0x12345678 ∧
    rol32 0xDEADBEEF 31 = 0xEF56DF77 ∧ ror32 0x12345678 8 = 0x78123456 ∧
    bswap32 0x12345678 = 0x78563412 ∧ le32 0x61 0x62 0x63 0x00 = 0x00636261 := by decide

/-- The boundary lengths of 95 section 1.2. -/
theorem test_compressionCount :
    compressionCount 0 = 1 ∧ compressionCount 191 = 2 ∧ compressionCount 192 = 2 ∧ compressionCount 193 = 3 ∧
    compressionCount 384 = 3 := by decide

/-- The canonical text of 95 section 1.1. -/
theorem test_digestText :
    digestText false #v[0xd3f0ad33, 0x79790917, 0x69135e44, 0xeb28aeda, 0x40e5423d, 0xd2e956e7] =
      "d3f0ad337979091769135e44eb28aeda40e5423dd2e956e7".toList := by decide +kernel

/-! ## The compression unit on the toy tables (95 section 3; not Validus's own tables) -/

/-- p_r of 95 section 3.1 and its inverse modulo 48. -/
def toyFactor : Fin 4 → Fin 48 × Fin 48 := ![(1, 1), (5, 29), (7, 7), (11, 35)]

/-- PERM[r][j] = (p_r × j + r) mod 48. -/
def toyPerm (r : Fin 4) : Equiv.Perm (Fin 48) where
  toFun j := (toyFactor r).1 * j + Fin.castLE (by decide) r
  invFun j := (toyFactor r).2 * (j - Fin.castLE (by decide) r)
  left_inv := by revert r; decide +kernel
  right_inv := by revert r; decide +kernel

def toyMix : Fin 4 → Mixer
  | 0, a, b, c, d, e => ((a &&& b) ^^^ (~~~a &&& c)) ^^^ d ^^^ e
  | 1, a, b, c, d, e => a ^^^ b ^^^ c ^^^ d ^^^ e
  | 2, a, b, c, d, e => (a &&& b) ^^^ (c &&& d) ^^^ e
  | 3, a, b, c, d, e => ~~~(a ^^^ (b &&& ~~~c)) ^^^ (d &&& e)

/-- The toy parameter set of 95 section 3.1. -/
def toy : EngineParams where
  tables :=
    { iv := #v[0x01234567, 0x89abcdef, 0xfedcba98, 0x76543210, 0xf0e1d2c3, 0xb4a59687]
      k := fun s => BitVec.ofNat 32 (s.val * 0x9e3779b9)
      r1 := fun s => ⟨s.val % 31 + 1, by omega⟩
      r2 := fun s => Fin.ofNat 32 (7 * s.val)
      perm := toyPerm
      mix := toyMix }

/-- Step 5 of the trace of `""` (95 section 3.2): target 1, sources 2 3 4 5 0. -/
theorem test_toy_step_5 :
    mixValue toy 5
      #v[0xba990184, 0x89abcdef, 0xc4dbd5e0, 0xaa2d803a, 0x93e01665, 0x6b86ac84] (adapter (padBlock 0 0)) =
        0x40f1cacd := by decide +kernel

/-- Step 0 of the trace of `"abc"` (95 section 3.2), by the engine's turn. -/
theorem test_toy_step_0 :
    onNext (fun t => t.w[0] == 0xbc268860 && t.w[1] == 0x89abcdef && t.stepNo == 1)
      (engineTurn toy (startCompress (Vector.replicate 48 0 |>.set 0 0x00636261)
        { State.reset with acc := toy.tables.iv })) = true := by decide +kernel

/-- Toy H(`""`) (95 section 3.4). -/
theorem test_toy_hash_empty :
    hash toy [] = #v[0x731f1efa, 0x07885c4a, 0x67b57df6, 0x857f388a, 0x8820df4a, 0xf5c9e46e] := by decide +kernel

/-- Toy H(`""`) with P_FEEDBACK = ADD_OLD (95 section 3.5). -/
theorem test_toy_hash_feedback :
    hash { toy with feedback := .addOld } [] =
      #v[0x65f006ac, 0x77265f01, 0x1f4e2a44, 0x2e09cdac, 0xa0882d4c, 0x69aac734] := by decide +kernel

/-! ## The host, the window and the step (95 section 2.7) -/

theorem test_write_status_ignored :
    onNext (fun t => regRead .status t == 0x00000302 && regRead .errinfo t == 0 && t.hostPc == 1)
      (step (withLine (.write (Access.word 0x08) 0xFFFFFFFF) (absorbing 3))) = true := by decide +kernel
theorem test_write_data_while_busy :
    onNext (fun t => regRead .data t == 0xCAFEF00D)
      (step (withLine (.write (Access.word 0x04) 0xCAFEF00D) (compressing .absorb 7))) = true := by decide +kernel
theorem test_read_status :
    onNext (fun t => t.hostNames == [(9, 0x00000302)]) (step (withLine (.read (Access.word 0x08) 9) (absorbing 3))) =
      true := by decide +kernel
theorem test_byte_write_refused :
    step (withLine (.write { off := 4, bytes := 1 } 0x61) State.reset) = .refused (.accessNotAdmitted 4 1) := rfl
theorem test_withFetchWord_runs_it :
    onNext (fun t => regRead .errcmd t == 0x12) (step (State.reset.withFetchWord 32 0x12)) = true := by
  decide +kernel
theorem test_assembly_of_append : asmAppend 3 0x00636261 =
    [.write (Access.word 0x04) 0x00636261, .write (Access.word 0x00) 0x00000032] := by decide

/-! ## Witnesses: states and operands that meet the hypotheses of each obligation

A statement with several clauses has a witness for each, at a boundary value of its range. -/

/-- A host line `wr CMD, v`. -/
def cmdLine (v : Word) : HostOp := .write { off := 0, bytes := 4 } v

theorem witness_DecodeEncodeAgree :
    decode 0x00000042 = .ok (.append 4) ∧ (Instr.append 4).wellFormed = true ∧
    encode (.append 4) = 0x00000042 := by decide

theorem witness_IllegalWordsTakeIllegalCmd :
    IllegalWord 0x00000080 ∧ IllegalWord 0x00000005 ∧ IllegalWord 0x00000013 ∧ IllegalWord 0x00000052 ∧
    ¬ IllegalWord 0x00000042 := by
  unfold IllegalWord
  decide

theorem witness_StepRunsDecodedCommand :
    (∃ s : State, nextHostOp s = some (cmdLine 0x12) ∧ s.schedule = [.host] ∧ decode 0x12 = .ok (.append 1)) ∧
    (∃ s : State, nextHostOp s = some (cmdLine 0x52) ∧ s.schedule = [.host] ∧
      decode 0x52 = .error (.nbytesTooLarge 5)) ∧
    (∃ s : State, nextHostOp s = some (cmdLine 0x01) ∧ s.schedule = [] ∧ s.cphase = .idle ∧
      decode 0x01 = .ok .init) ∧
    (∃ s : State, nextHostOp s = some (cmdLine 0x05) ∧ s.schedule = [] ∧ s.cphase = .idle ∧
      decode 0x05 = .error (.reservedOp 5)) :=
  ⟨⟨withLine (cmdLine 0x12) State.reset, rfl, rfl, by decide⟩,
    ⟨withLine (cmdLine 0x52) State.reset, rfl, rfl, by decide⟩,
    ⟨{ State.reset with hostProg := [cmdLine 0x01] }, rfl, rfl, rfl, by decide⟩,
    ⟨{ State.reset with hostProg := [cmdLine 0x05] }, rfl, rfl, rfl, by decide⟩⟩

theorem witness_StepRunsEngineTurn :
    ({ compressing .absorb 0 with schedule := [.engine] } : State).schedule = .engine :: [] ∧
    (compressing .absorb 192).schedule = [] ∧ nextHostOp (compressing .absorb 192) = none ∧
    (compressing .absorb 192).cphase = .run ∧ (compressing .absorb 192).stepNo.toNat ≤ 192 := by decide

theorem witness_UnscheduledStepIsOneOfTheTwo :
    ∃ s : State, s.schedule = [] ∧ engineReady s = true ∧ hostReady s = true :=
  ⟨{ compressing .absorb 192 with hostProg := [cmdLine 0x12] }, rfl, by decide, by decide⟩

/-- For NopCompletes, InitCompletes, AppendZeroHasNoEffect, ClrerrCompletes: both values of BUSY. -/
theorem witness_busy_and_idle :
    (absorbing 0).cphase = .idle ∧ (compressing .absorb 0).cphase = .run := by decide

theorem witness_AppendWithinBlock :
    (absorbing 187).cphase = .idle ∧ (absorbing 187).dstate = .absorb ∧ 1 ≤ (4 : BitVec 3).toNat ∧
    (4 : BitVec 3).toNat ≤ 4 ∧ (absorbing 187).fill.toNat + (4 : BitVec 3).toNat < 192 ∧
    (absorbing 0).fill.toNat + (1 : BitVec 3).toNat < 192 := by decide

theorem witness_AppendCompletesBlock :
    (absorbing 191).cphase = .idle ∧ (absorbing 191).dstate = .absorb ∧ 1 ≤ (1 : BitVec 3).toNat ∧
    (4 : BitVec 3).toNat ≤ 4 ∧ (absorbing 191).fill.toNat ≤ 191 ∧
    192 ≤ (absorbing 191).fill.toNat + (1 : BitVec 3).toNat ∧
    192 ≤ (absorbing 191).fill.toNat + (4 : BitVec 3).toNat ∧
    192 ≤ (absorbing 188).fill.toNat + (4 : BitVec 3).toNat := by decide

theorem witness_AppendRejectedByState :
    State.reset.cphase = .idle ∧ State.reset.dstate = .uninit ∧ finalized.cphase = .idle ∧
    finalized.dstate = .finalized ∧ 1 ≤ (1 : BitVec 3).toNat ∧ (4 : BitVec 3).toNat ≤ 4 := by decide

theorem witness_AppendOfTooManyIsIllegal : 5 ≤ (5 : BitVec 3).toNat ∧ 5 ≤ (7 : BitVec 3).toNat := by decide

theorem witness_FinalizeOnEmptyBuffer :
    (absorbing 0).cphase = .idle ∧ (absorbing 0).dstate = .absorb ∧ (absorbing 0).fill = 0 := by decide

theorem witness_FinalizeOnPartialBlock :
    (absorbing 191).cphase = .idle ∧ (absorbing 191).dstate = .absorb ∧ (absorbing 191).fill ≠ 0 ∧
    (absorbing 1).fill ≠ 0 := by decide

theorem witness_FinalizeRejectedByState :
    State.reset.cphase = .idle ∧ State.reset.dstate = .uninit ∧ finalized.cphase = .idle ∧
    finalized.dstate = .finalized := by decide

theorem witness_BusyRejectsEveryCommand :
    (compressing .finData 192).cphase = .run ∧ ¬ IllegalWord 0x00000042 := by
  unfold IllegalWord
  decide

theorem witness_FirstErrorIsKept :
    (withError State.reset).err = true ∧
    (∃ t, executeCommand 0x00000001 (withError State.reset) = .next t) ∧
    (∃ t, executeCommand 0x00000004 (withError (compressing .absorb 0)) = .next t ∧
      (withError (compressing .absorb 0)).cphase = .run) ∧
    (∃ t, executeCommand 0x00000052 (withError State.reset) = .next t ∧ IllegalWord 0x00000052) ∧
    (∃ t, executeCommand 0x00000012 (withError State.reset) = .next t ∧
      (withError State.reset).dstate = .uninit) ∧
    (∃ t, executeCommand 0x00000003 (withError finalized) = .next t ∧
      (withError finalized).dstate = .finalized) :=
  ⟨rfl, ⟨_, rfl⟩, ⟨_, rfl, rfl⟩, ⟨_, rfl, by unfold IllegalWord; decide⟩, ⟨_, rfl, rfl⟩, ⟨_, rfl, rfl⟩⟩

theorem witness_CommandErrorPriority :
    State.reset.err = false ∧ State.reset.errcode = .none ∧
    (∃ t, executeCommand 0x00000052 State.reset = .next t ∧ IllegalWord 0x00000052) ∧
    (∃ t, executeCommand 0x00000004 (compressing .absorb 0) = .next t ∧ ¬ IllegalWord 0x00000004) ∧
    (∃ t, executeCommand 0x00000042 State.reset = .next t ∧ ¬ IllegalWord 0x00000042) ∧
    (∃ t, executeCommand 0x00000003 finalized = .next t ∧ ¬ IllegalWord 0x00000003) ∧
    (∃ t, executeCommand 0x00000012 (absorbing 191) = .next t ∧ ¬ IllegalWord 0x00000012) ∧
    (∃ t, executeCommand 0x00000002 finalized = .next t ∧ ¬ IllegalWord 0x00000002) := by
  refine ⟨rfl, rfl, ⟨_, rfl, ?_⟩, ⟨_, rfl, ?_⟩, ⟨_, rfl, ?_⟩, ⟨_, rfl, ?_⟩, ⟨_, rfl, ?_⟩, ⟨_, rfl, ?_⟩⟩ <;>
    · unfold IllegalWord
      decide

theorem witness_MixStepFollowsRule :
    (compressing .absorb 0).cphase = .run ∧ (compressing .absorb 0).stepNo.toNat = (0 : Fin 192).val ∧
    (compressing .finPad 191).cphase = .run ∧ (compressing .finPad 191).stepNo.toNat = (191 : Fin 192).val := by
  decide

theorem witness_TargetsRotate : 1 ≤ 1 ∧ 1 ≤ 5 ∧ 5 ≤ 5 := by decide

theorem witness_FeedForwardEndsCompression :
    (compressing .absorb 192).cphase = .run ∧ (compressing .absorb 192).stepNo = 192 ∧
    (compressing .finData 192).dstate = .finData ∧ (compressing .finPad 192).dstate = .finPad ∧
    (compressing .absorb 192).dstate ≠ .finData ∧ (compressing .absorb 192).dstate ≠ .finPad := by decide

theorem witness_EngineNeverStalls :
    State.reset.cphase = .idle ∧ (compressing .absorb 192).cphase = .run ∧
    (compressing .absorb 192).stepNo.toNat ≤ 192 := by decide

theorem witness_AccKeptUntilFeedForward : 0 ≤ 192 ∧ 192 ≤ 192 := by decide

theorem witness_FinalizationLength :
    (absorbing 0).cphase = .idle ∧ (absorbing 0).dstate = .absorb ∧ (absorbing 0).fill = 0 ∧
    (∃ t, exec .finalize (absorbing 0) = .next t) ∧ (absorbing 191).fill ≠ 0 ∧
    (∃ t, exec .finalize (absorbing 191) = .next t) :=
  ⟨rfl, rfl, rfl, ⟨_, rfl⟩, by decide, ⟨_, rfl⟩⟩

theorem witness_AdapterIsLittleEndian : 47 < 48 ∧ 3 < 4 := by decide

theorem witness_PadBlockWords : 1 ≤ 1 ∧ 1 ≤ 45 ∧ 45 ≤ 45 ∧ 45 < 48 := by decide

/-- The host's turn, scheduled and with nothing scheduled while the engine is idle. -/
theorem witness_HostMoves (op : HostOp) :
    HostMoves (withLine op State.reset) { withLine op State.reset with schedule := [] } ∧
    HostMoves { State.reset with hostProg := [op] } { State.reset with hostProg := [op] } ∧
    nextHostOp (withLine op State.reset) = some op ∧ nextHostOp { State.reset with hostProg := [op] } = some op :=
  ⟨.inl ⟨[], rfl, rfl⟩, .inr (.inl ⟨rfl, rfl, rfl⟩), rfl, rfl⟩

theorem witness_ReadsHaveNoSideEffects :
    (∃ s u, HostMoves s u ∧ nextHostOp s = some (.read { off := 4 * (0 : Nat), bytes := 4 } 9)) ∧
    (∃ s u, HostMoves s u ∧ s.schedule = [] ∧
      nextHostOp s = some (.read { off := 4 * (15 : Nat), bytes := 4 } 9)) ∧ 0 < 16 ∧ 15 < 16 :=
  have w := witness_HostMoves
  ⟨⟨_, _, (w _).1, (w _).2.2.1⟩, ⟨_, _, (w _).2.1, rfl, (w _).2.2.2⟩, by decide, by decide⟩

theorem witness_WritesBesidesCmd :
    (∃ s u, HostMoves s u ∧ nextHostOp s = some (.write { off := 4 * (1 : Nat), bytes := 4 } 7)) ∧
    (∃ s u, HostMoves s u ∧ s.schedule = [] ∧
      nextHostOp s = some (.write { off := 4 * (15 : Nat), bytes := 4 } 7)) ∧ 1 ≤ 1 ∧ 15 < 16 :=
  have w := witness_HostMoves
  ⟨⟨_, _, (w _).1, (w _).2.2.1⟩, ⟨_, _, (w _).2.1, rfl, (w _).2.2.2⟩, by decide, by decide⟩

/-- The first access lies across the window's upper edge, the second across its lower one, the third is a byte. -/
theorem witness_InadmissibleAccessHasNoStep :
    (∃ s u, HostMoves s u ∧ nextHostOp s = some (.write { off := 63, bytes := 4 } 7)) ∧
    (∃ i < 4, (0 : Int) ≤ 63 + (i : Nat) ∧ (63 : Int) + (i : Nat) < 64) ∧ (63 : Int) % 4 ≠ 0 ∧
    (∃ s u, HostMoves s u ∧ s.schedule = [] ∧ nextHostOp s = some (.read { off := -1, bytes := 4 } 7)) ∧
    (∃ i < 4, (0 : Int) ≤ -1 + (i : Nat) ∧ (-1 : Int) + (i : Nat) < 64) ∧ (-1 : Int) % 4 ≠ 0 ∧
    (∃ s u, HostMoves s u ∧ nextHostOp s = some (.write { off := 0, bytes := 1 } 7)) ∧
    (∃ i < 1, (0 : Int) ≤ 0 + (i : Nat) ∧ (0 : Int) + (i : Nat) < 64) ∧ (1 : Nat) ≠ 4 :=
  have w := witness_HostMoves
  ⟨⟨_, _, (w _).1, (w _).2.2.1⟩, ⟨0, by decide⟩, by decide, ⟨_, _, (w _).2.1, rfl, (w _).2.2.2⟩, ⟨1, by decide⟩,
    by decide, ⟨_, _, (w _).1, (w _).2.2.1⟩, ⟨0, by decide⟩, by decide⟩

theorem witness_AccessOutsideWindowLeavesEngine :
    (∃ s u, HostMoves s u ∧ nextHostOp s = some (.write { off := 64, bytes := 4 } 7)) ∧
    (∀ i < 4, (64 : Int) + (i : Nat) < 0 ∨ (64 : Int) ≤ 64 + (i : Nat)) ∧
    (∃ s u, HostMoves s u ∧ s.schedule = [] ∧ nextHostOp s = some (.read { off := -4, bytes := 4 } 7)) ∧
    (∀ i < 4, (-4 : Int) + (i : Nat) < 0 ∨ (64 : Int) ≤ -4 + (i : Nat)) :=
  have w := witness_HostMoves
  ⟨⟨_, _, (w _).1, (w _).2.2.1⟩, by decide, ⟨_, _, (w _).2.1, rfl, (w _).2.2.2⟩, by decide⟩

theorem witness_HostBranches :
    (∃ s u, HostMoves s u ∧ nextHostOp s = some (.bnz 9 0x1 0) ∧ nameValue 9 s.hostNames &&& 0x1 ≠ 0) ∧
    (∃ s u, HostMoves s u ∧ s.schedule = [] ∧ nextHostOp s = some (.bnz 9 0x1 0) ∧
      nameValue 9 s.hostNames &&& 0x1 = 0) :=
  ⟨⟨{ withLine (.bnz 9 0x1 0) State.reset with hostNames := [(9, 1)] }, _, .inl ⟨[], rfl, rfl⟩, rfl, by decide⟩,
    ⟨{ State.reset with hostProg := [.bnz 9 0x1 0], hostNames := [(9, 2)] }, _, .inr (.inl ⟨rfl, rfl, rfl⟩), rfl, rfl,
      by decide⟩⟩

theorem witness_ResetTurnResetsEngine :
    ({ compressing .finData 100 with schedule := [.reset] } : State).schedule = .reset :: [] := rfl

/-- An engine as reset leaves it, with a host line that reads STATUS, and with the engine scheduled. -/
theorem witness_AfterResetNothingHappens :
    (∃ s t, SameEngine State.reset s ∧ step s = .next t ∧ nextTurn s = .host ∧
      nextHostOp s = some (.read { off := 0x08, bytes := 4 } 9) ∧
      ∀ v, nextHostOp s ≠ some (.write { off := 0x00, bytes := 4 } v) ∧
        nextHostOp s ≠ some (.write { off := 0x04, bytes := 4 } v)) ∧
    (∃ s t, SameEngine State.reset s ∧ step s = .next t ∧ nextTurn s = .engine) ∧
    (∃ t, (0x00000012 : Word) ≠ 0x00000001 ∧ executeCommand 0x00000012 State.reset = .next t) :=
  have same : ∀ p l, SameEngine State.reset { State.reset with hostProg := p, schedule := l } := fun _ _ =>
    ⟨rfl, rfl, rfl, rfl, rfl, rfl, rfl, rfl, rfl, rfl, rfl, rfl, rfl, rfl⟩
  ⟨⟨_, _, same [.read { off := 0x08, bytes := 4 } 9] [], rfl, rfl, rfl,
      fun v => by constructor <;> exact fun h => by cases h⟩,
    ⟨_, _, same [] [.engine], rfl, rfl⟩, ⟨_, by decide, rfl⟩⟩

theorem reset_inv : EngineInv State.reset := by
  unfold EngineInv
  decide

theorem witness_StepKeepsInv :
    EngineInv State.reset ∧ (∃ t, step State.reset = .next t) ∧
    EngineInv (compressing .finData 192) ∧ (∃ t, step (compressing .finData 192) = .next t) := by
  refine ⟨reset_inv, ⟨_, rfl⟩, ?_, ⟨_, rfl⟩⟩
  unfold EngineInv
  decide

theorem witness_InvStatesNeverFault : EngineInv (compressing .absorb 192) ∧ EngineInv (absorbing 191) := by
  unfold EngineInv
  decide

/-- One step for each way STATE can change. -/
theorem witness_DigestStateTransitions :
    onNext (fun t => t.dstate != .uninit) (step (withLine (cmdLine 0x01) State.reset)) = true ∧
    onNext (fun t => t.dstate != .finalized) (step (withLine (cmdLine 0x01) finalized)) = true ∧
    onNext (fun t => t.dstate != .absorb) (step (withLine (cmdLine 0x03) (absorbing 0))) = true ∧
    onNext (fun t => t.dstate != .absorb) (step (withLine (cmdLine 0x03) (absorbing 191))) = true ∧
    onNext (fun t => t.dstate != .finData) (step (compressing .finData 192)) = true ∧
    onNext (fun t => t.dstate != .finPad) (step (compressing .finPad 192)) = true ∧
    onNext (fun t => t.dstate != .absorb) (step { absorbing 3 with schedule := [.reset] }) = true ∧
    EngineInv (absorbing 191) ∧ EngineInv finalized := by
  unfold EngineInv
  decide +kernel

theorem witness_AccWriters :
    onNext (fun t => t.acc != Vector.replicate 6 0)
      (step { compressing .absorb 192 with w := Vector.replicate 6 1 }) = true ∧
    onNext (fun t => t.acc != Vector.replicate 6 1)
      (step { absorbing 0 with acc := Vector.replicate 6 1, schedule := [.reset] }) = true := by decide +kernel

theorem witness_DigestZeroInUninit :
    State.reset.dstate = .uninit ∧ State.reset.cphase = .idle ∧ (∀ i (h : i < 6), State.reset.acc[i] = 0) ∧
    onNext (fun t => t.dstate == .uninit) (step (withLine (cmdLine 0x12) State.reset)) = true :=
  ⟨rfl, rfl, by decide, by decide +kernel⟩

theorem witness_BitCounterWriters :
    onNext (fun t => t.bitCount != 0) (step (withLine (cmdLine 0x12) (absorbing 0))) = true ∧
    onNext (fun t => t.bitCount != 8) (step (withLine (cmdLine 0x01) { absorbing 1 with bitcntLo := 8 })) = true ∧
    onNext (fun t => t.bitCount != 8) (step { absorbing 1 with bitcntLo := 8, schedule := [.reset] }) = true := by
  decide +kernel

theorem witness_DataWriters :
    onNext (fun t => t.data != 0) (step (withLine (.write { off := 4, bytes := 4 } 7) State.reset)) = true ∧
    onNext (fun t => t.data != 7) (step { State.reset with data := 7, schedule := [.reset] }) = true := by
  decide +kernel

theorem witness_ErrorRegisterWriters :
    onNext (fun t => t.err != false) (step (withLine (cmdLine 0x12) State.reset)) = true ∧
    onNext (fun t => t.err != true) (step { withError State.reset with schedule := [.reset] }) = true := by
  decide +kernel

theorem witness_BusyRisesOnlyByHostCommands :
    EngineInv (absorbing 188) ∧ (absorbing 188).cphase = .idle ∧
    onNext (fun t => t.cphase == .run) (step (withLine (cmdLine 0x42) (absorbing 188))) = true ∧
    onNext (fun t => t.cphase == .run) (step (withLine (cmdLine 0x03) (absorbing 0))) = true := by
  unfold EngineInv
  decide +kernel

theorem witness_DigestKeptOnceValid :
    EngineInv (withLine (cmdLine 0x12) finalized) ∧ (withLine (cmdLine 0x12) finalized).dstate = .finalized ∧
    onNext (fun _ => true) (step (withLine (cmdLine 0x12) finalized)) = true ∧
    acceptedCommand (withLine (cmdLine 0x12) finalized) ≠ some .init ∧
    nextTurn (withLine (cmdLine 0x12) finalized) ≠ .reset := by
  unfold EngineInv
  decide +kernel

theorem witness_UnpolledWriteHasBothOutcomes :
    ∃ s : State, s.cphase = .run ∧ s.stepNo = 192 ∧ s.dstate = .absorb ∧ s.err = false ∧ s.fill.toNat < 191 ∧
      nextHostOp s = some (cmdLine 0x00000012) :=
  ⟨{ compressing .absorb 192 with fill := 190, hostProg := [cmdLine 0x12] }, rfl, rfl, rfl, rfl, by decide, rfl⟩

/-- A message just opened, with nothing appended. -/
def opened : State := { absorbing 0 with acc := Config.engine.tables.iv }

theorem opened_inv : EngineInv opened := by
  have h : EngineInv (absorbing 0) := by
    unfold EngineInv
    decide
  exact h

/-- ABSORB while idle: nothing appended yet. -/
theorem witness_StepTracksMessage : Tracks [] opened ∧ ∃ t, step opened = .next t := by
  refine ⟨⟨opened_inv, ?_⟩, ⟨_, rfl⟩⟩
  show _ ∧ _ ∧ _ ∧ _
  exact ⟨by decide, rfl, fun i _ h => absurd h (Nat.not_lt_zero i), rfl⟩

/-- A compression of `blk` from the chaining value `acc` in the STATE `d`, `n` of its steps done. -/
def midway (d : DState) (acc : Six) (blk : BlockWords) (n : BitVec 8) (msg : List Octet) : State :=
  { compressing d n with
    acc := acc, x := blk, w := mixSteps Config.engine blk n.toNat acc,
    bitcntHi := (bitCountOf msg).extractLsb' 32 32, bitcntLo := (bitCountOf msg).extractLsb' 0 32 }

theorem midway_compressing (d : DState) (acc : Six) (blk : BlockWords) (n : BitVec 8) (msg : List Octet) :
    Compressing (midway d acc blk n msg) blk := ⟨rfl, rfl⟩

theorem midway_steps (d : DState) (acc : Six) (blk : BlockWords) (msg : List Octet) :
    ∃ t, step (midway d acc blk 192 msg) = .next t := ⟨feedForward (midway d acc blk 192 msg), rfl⟩

theorem midway_inv (d : DState) (hd : d ≠ .uninit ∧ d ≠ .finalized) (acc : Six) (blk : BlockWords) (n : BitVec 8)
    (hn : n.toNat ≤ 192) (msg : List Octet) : EngineInv (midway d acc blk n msg) :=
  ⟨Nat.zero_le _, fun h => (by cases h), fun _ => hn, fun _ => rfl,
    fun h => by rcases h with h | h; exacts [absurd h hd.1, absurd h hd.2], fun _ => rfl, fun _ => ⟨rfl, rfl⟩⟩

/-- A running data block: 192 octets appended. -/
theorem witness_StepTracksMessage_data :
    ∃ s, Tracks (List.replicate 192 0x61) s ∧ s.dstate = .absorb ∧ s.cphase = .run ∧ ∃ t, step s = .next t := by
  refine ⟨midway .absorb Config.engine.tables.iv (adapter (blockAt (List.replicate 192 0x61) 0)) 192
    (List.replicate 192 0x61), ⟨midway_inv _ (by decide) _ _ _ (by decide) _, ?_⟩, rfl, rfl, midway_steps _ _ _ _⟩
  show _ ∧ _ ∧ _ ∧ _ ∧ _ ∧ _
  rw [List.length_replicate]
  exact ⟨by decide +kernel, rfl, fun i _ h => absurd h (Nat.not_lt_zero i), le_rfl, rfl,
    midway_compressing _ _ _ _ _⟩

/-- FIN_DATA: one octet appended. -/
theorem witness_StepTracksMessage_finData :
    ∃ s, Tracks [0x61] s ∧ s.dstate = .finData ∧ ∃ t, step s = .next t := by
  refine ⟨midway .finData Config.engine.tables.iv (adapter (zeroFill (blockAt [0x61] 0) 1)) 192 [0x61],
    ⟨midway_inv _ (by decide) _ _ _ (by decide) _, ?_⟩, rfl, midway_steps _ _ _ _⟩
  show _ ∧ _ ∧ _ ∧ _
  exact ⟨by decide +kernel, by decide, rfl, midway_compressing _ _ _ _ _⟩

/-- FIN_PAD: nothing appended. -/
theorem witness_StepTracksMessage_finPad :
    ∃ s, Tracks [] s ∧ s.dstate = .finPad ∧ ∃ t, step s = .next t := by
  refine ⟨midway .finPad Config.engine.tables.iv
    (adapter (padBlock ((bitCountOf []).extractLsb' 32 32) ((bitCountOf []).extractLsb' 0 32))) 192 [],
    ⟨midway_inv _ (by decide) _ _ _ (by decide) _, ?_⟩, rfl, midway_steps _ _ _ _⟩
  show _ ∧ _ ∧ _
  exact ⟨by decide +kernel, rfl, midway_compressing _ _ _ _ _⟩

/-- FINALIZED. -/
theorem witness_StepTracksMessage_finalized :
    ∃ s, Tracks [] s ∧ s.dstate = .finalized ∧ ∃ t, step s = .next t := by
  have key : ∀ a : Six, EngineInv { finalized with acc := a } ∧
      step { finalized with acc := a } = .next { finalized with acc := a } := fun a =>
    ⟨⟨Nat.zero_le _, fun _ => rfl, fun h => (by cases h), fun h => (by rcases h with h | h <;> cases h), fun _ => rfl,
      fun _ => rfl, fun _ => ⟨rfl, rfl⟩⟩, rfl⟩
  refine ⟨{ finalized with acc := hash Config.engine [] }, ⟨(key _).1, ?_⟩, rfl, ⟨_, (key _).2⟩⟩
  show _ ∧ _
  exact ⟨by decide +kernel, rfl⟩

theorem witness_ProtocolComputesHash :
    EngineInv State.reset ∧ State.reset.cphase = .idle ∧
    ∀ c ∈ ([(4, 0x696c6176), (3, 0x00737564)] : List Chunk), c.1.toNat ≤ 4 :=
  ⟨reset_inv, rfl, by simp⟩

theorem witness_StreamingEquivalence :
    EngineInv State.reset ∧ State.reset.cphase = .idle ∧
    (∀ c ∈ ([(3, 0x00636261)] : List Chunk), c.1.toNat ≤ 4) ∧
    (∀ c ∈ ([(1, 0x00000061), (2, 0x00006362)] : List Chunk), c.1.toNat ≤ 4) ∧
    ([(3, 0x00636261)] : List Chunk).flatMap chunkOctets =
      ([(1, 0x00000061), (2, 0x00006362)] : List Chunk).flatMap chunkOctets :=
  ⟨reset_inv, rfl, by simp, by simp, by decide +kernel⟩

theorem addSix_zero : addSix (Vector.replicate 6 0) (Vector.replicate 6 0) = Vector.replicate 6 0 := by decide

/-- A run whose first step is the last transition of a compression. -/
def lastTransition : Nat → State
  | 0 => compressing .finPad 192
  | _ + 1 => finalized

theorem witness_FairRunsBecomeIdle :
    IsRun lastTransition ∧ WeaklyFair lastTransition ∧ EngineInv (lastTransition 0) := by
  have hff : feedForward (compressing .finPad 192) = finalized := by
    rw [feedForward_of_finPad rfl]
    simp only [compressing, State.reset, addSix_zero]
    rfl
  refine ⟨?_, ?_, ?_⟩
  · intro n
    cases n with
    | zero =>
      show Host.Outcome.next (feedForward (compressing .finPad 192)) = Host.Outcome.next finalized
      rw [hff]
    | succ n => rfl
  · intro n h
    have := h (n + 1) (Nat.le_succ n)
    rw [show engineReady (lastTransition (n + 1)) = false from rfl] at this
    exact Bool.noConfusion this
  · show EngineInv (compressing .finPad 192)
    unfold EngineInv
    decide

/-- A host at the head of a wait loop while the last transition of a compression is due: it reads BUSY = 1 and
branches back, the engine moves, and it reads again. -/
def waiting : State :=
  { compressing .finPad 192 with hostProg := asmWait 0 9, schedule := [.host, .host, .engine] }

/-- The run from `waiting`; from its state 5 on nothing moves. -/
def waitRun : Nat → State
  | 0 => waiting
  | 1 => { waiting with hostPc := 1, hostNames := [(9, 0x00C00007)], schedule := [.host, .engine] }
  | 2 => { waiting with hostPc := 0, hostNames := [(9, 0x00C00007)], schedule := [.engine] }
  | 3 => { finalized with hostProg := asmWait 0 9, hostNames := [(9, 0x00C00007)] }
  | 4 => { finalized with hostProg := asmWait 0 9, hostPc := 1, hostNames := [(9, 0x00000018)] }
  | _ + 5 => { finalized with hostProg := asmWait 0 9, hostPc := 2, hostNames := [(9, 0x00000018)] }

theorem waitRun_isRun : IsRun waitRun := by
  intro n
  match n with
  | 0 => rfl
  | 1 => rfl
  | 2 =>
    show Host.Outcome.next (feedForward { waitRun 2 with schedule := [] }) = _
    rw [feedForward_of_finPad rfl]
    simp only [waitRun, waiting, compressing, State.reset, addSix_zero]
    rfl
  | 3 => rfl
  | 4 => rfl
  | n + 5 => rfl

theorem witness_WaitLoopEnds :
    IsRun waitRun ∧ WeaklyFair waitRun ∧ HostKeepsMoving waitRun ∧ EngineInv (waitRun 0) ∧
    (waitRun 0).hostProg[0]? = some (.read { off := 0x08, bytes := 4 } 9) ∧
    (waitRun 0).hostProg[0 + 1]? = some (.bnz 9 0x1 0) ∧ (waitRun 0).hostPc = 0 := by
  refine ⟨waitRun_isRun, fun n h => ?_, fun n => ⟨n + 5, by omega, rfl⟩, ?_, rfl, rfl, rfl⟩
  · have := h (n + 5) (by omega)
    rw [show engineReady (waitRun (n + 5)) = false from rfl] at this
    exact Bool.noConfusion this
  · show EngineInv (compressing .finPad 192)
    unfold EngineInv
    decide

end Sys2Proof.Tests
end

section
/-! PROOFS. The STATUS register field by field, and that a write to it is ignored (spec/10_state.md R36). -/

namespace Sys2Proof.Machine

/-! ## The register at offset 0x08 -/

@[simp] theorem regAt_status : regAt 0x08 = .status := rfl

@[simp] theorem regRead_status (s : State) : regRead .status s = statusWord s := rfl

@[simp] theorem regWrite_status (v : Word) (s : State) : regWrite .status v s = .next s := rfl

/-! ## The fields of `statusWord`, from the lowest up

A flag is found by walking down the concatenation to its bit.  For a longer field the parts above it are dropped, and
then it is the upper part of what is left. -/

section Fields

variable (s : State)

/-- The encoding of `CPHASE` is the BUSY flag (R29). -/
theorem cphaseBit_eq_ofBool_busy : cphaseBit s.cphase = BitVec.ofBool s.busy := by
  unfold State.busy
  cases s.cphase <;> rfl

/-- The word with its width written as the sum of the widths of its fields: the library's rules for `++` apply to that
form, and not to the width 32. -/
theorem statusWord_eq_cast : statusWord s =
    (0#8 ++ (s.stepNo ++ (s.fill ++ (0#2 ++ (BitVec.ofBool s.err ++ (BitVec.ofBool s.digestValid ++
      (dstateCode s.dstate ++ BitVec.ofBool s.busy))))))).cast rfl := by
  rw [← cphaseBit_eq_ofBool_busy]
  rfl

theorem statusWord_busy : (statusWord s).getLsbD 0 = s.busy := by
  simp only [statusWord_eq_cast, BitVec.getLsbD_cast, BitVec.getLsbD_append]
  simp

theorem statusWord_dstate : (statusWord s).extractLsb' 1 3 = dstateCode s.dstate := by
  simp (disch := decide) only [statusWord_eq_cast, BitVec.extractLsb'_cast, BitVec.extractLsb'_append_eq_of_add_le,
    BitVec.extractLsb'_append_eq_left, -Nat.reduceAdd]

theorem statusWord_digestValid : (statusWord s).getLsbD 4 = s.digestValid := by
  simp only [statusWord_eq_cast, BitVec.getLsbD_cast, BitVec.getLsbD_append]
  simp

theorem statusWord_err : (statusWord s).getLsbD 5 = s.err := by
  simp only [statusWord_eq_cast, BitVec.getLsbD_cast, BitVec.getLsbD_append]
  simp

theorem statusWord_reserved_low : (statusWord s).extractLsb' 6 2 = 0#2 := by
  simp (disch := decide) only [statusWord_eq_cast, BitVec.extractLsb'_cast, BitVec.extractLsb'_append_eq_of_add_le,
    BitVec.extractLsb'_append_eq_left, -Nat.reduceAdd]

theorem statusWord_fill : (statusWord s).extractLsb' 8 8 = s.fill := by
  simp (disch := decide) only [statusWord_eq_cast, BitVec.extractLsb'_cast, BitVec.extractLsb'_append_eq_of_add_le,
    BitVec.extractLsb'_append_eq_left, -Nat.reduceAdd]

theorem statusWord_stepNo : (statusWord s).extractLsb' 16 8 = s.stepNo := by
  simp (disch := decide) only [statusWord_eq_cast, BitVec.extractLsb'_cast, BitVec.extractLsb'_append_eq_of_add_le,
    BitVec.extractLsb'_append_eq_left, -Nat.reduceAdd]

theorem statusWord_reserved_high : (statusWord s).extractLsb' 24 8 = 0#8 :=
  BitVec.extractLsb'_append_eq_left

end Fields

/-! ## The obligation -/

/-- Settles O34: each field from its lemma about `statusWord`, and the codes of STATE (R28) case by case. -/
theorem statusFields : Obligations.StatusFields := by
  intro s
  rw [regAt_status, regRead_status]
  refine ⟨statusWord_busy s, ?code, statusWord_digestValid s, statusWord_err s, statusWord_reserved_low s,
    statusWord_fill s, statusWord_stepNo s, statusWord_reserved_high s, fun v => regWrite_status v s⟩
  case code =>
    rw [statusWord_dstate]
    cases s.dstate <;> rfl

end Sys2Proof.Machine
end

section
/-! PROOFS. A read of the window: what the host's turn does on it, and that it leaves the engine alone
(spec/20_memory.md R54). -/

namespace Sys2Proof.Machine

/-! ## The aligned accesses of the window (R33, R53) -/

theorem inWindow_aligned {k : Nat} (hk : k < 16) : Access.inWindow { off := 4 * (k : Int), bytes := 4 } = true := by
  simp only [Access.inWindow, decide_eq_true_eq]
  omega

@[simp] theorem admitted_aligned (k : Nat) : Access.admitted { off := 4 * (k : Int), bytes := 4 } = true := by
  simp [Access.admitted]

@[simp] theorem reg_aligned (k : Nat) : Access.reg { off := 4 * (k : Int), bytes := 4 } = regAt (4 * k) := by
  have off_toNat : (4 * (k : Int)).toNat = 4 * k := by omega
  rw [Access.reg, off_toNat]

/-! ## The host's line `rd` (R88) -/

theorem hostTurn_of_read {s : State} {a : Access} {name : Nat} (h : nextHostOp s = some (.read a name)) :
    hostTurn s = hostRead a name s := by
  rw [hostTurn, h]

/-- An admitted read writes the host's place and names, and nothing else. -/
theorem hostRead_of_admitted {a : Access} (hw : a.inWindow = true) (ha : a.admitted = true) (name : Nat) (s : State) :
    hostRead a name s = .next { s with
      hostPc := s.hostPc + 1, hostNames := bindName name (regRead a.reg s) s.hostNames } := by
  rw [hostRead, if_pos hw, if_pos ha]
  rfl

/-- The step of a host turn whose line reads the `k`-th register of the window. -/
theorem step_of_read_aligned {s u : State} {k name : Nat} (hu : HostMoves s u) (hk : k < 16)
    (hop : nextHostOp s = some (.read { off := 4 * (k : Int), bytes := 4 } name)) :
    step s = .next { u with
      hostPc := s.hostPc + 1, hostNames := bindName name (regRead (regAt (4 * k)) s) s.hostNames } := by
  obtain ⟨hstep, hnext⟩ := step_of_hostMoves hu
  obtain ⟨hengine, -, hpc, hnames⟩ := hostMoves_frame hu
  rw [hstep, hostTurn_of_read (hnext.trans hop), hostRead_of_admitted (inWindow_aligned hk) (admitted_aligned k),
    reg_aligned, regRead_of_sameEngine hengine, hpc, hnames]

/-! ## The obligation -/

/-- Settles O36: the step writes the host's place and names alone, which no register reads, and the names are as the
laws of `bindName` say. -/
theorem readsHaveNoSideEffects : Obligations.ReadsHaveNoSideEffects := by
  intro s u k name hu hk hop
  obtain ⟨hengine, -⟩ := hostMoves_frame hu
  refine ⟨_, step_of_read_aligned hu hk hop, rfl, ?bound, ?registers, ?others⟩
  case bound => exact nameValue_bindName name _ s.hostNames
  case registers => exact regRead_of_sameEngine hengine
  case others => exact fun other hne => nameValue_bindName_of_ne hne _ s.hostNames

end Sys2Proof.Machine
end

section
/-! PROOFS. The decoder and the encoder of command words: that each undoes the other, which words are legal, and what
an illegal word does (spec/30_encoding.md R81 to R86). -/

namespace Sys2Proof

/-! ## The fields of a command word (R81) -/

@[simp] theorem rsvField_commandWord (rsv : BitVec 25) (nbytes : BitVec 3) (op : BitVec 4) :
    rsvField (commandWord rsv nbytes op) = rsv :=
  (BitVec.extractLsb'_append_eq_of_le (by decide)).trans BitVec.extractLsb'_append_eq_left

@[simp] theorem nbytesField_commandWord (rsv : BitVec 25) (nbytes : BitVec 3) (op : BitVec 4) :
    nbytesField (commandWord rsv nbytes op) = nbytes :=
  (BitVec.extractLsb'_append_eq_of_le (by decide)).trans BitVec.extractLsb'_append_eq_right

@[simp] theorem opField_commandWord (rsv : BitVec 25) (nbytes : BitVec 3) (op : BitVec 4) :
    opField (commandWord rsv nbytes op) = op :=
  BitVec.extractLsb'_append_eq_right

/-- The three fields make up the whole word. -/
theorem commandWord_fields (v : Word) : commandWord (rsvField v) (nbytesField v) (opField v) = v := by
  have rsv_nbytes : rsvField v ++ nbytesField v = v.extractLsb' 4 28 :=
    BitVec.extractLsb'_append_extractLsb'_eq_extractLsb' rfl
  rw [commandWord, rsv_nbytes]
  exact (BitVec.extractLsb'_append_extractLsb'_eq_extractLsb' rfl).trans BitVec.extractLsb'_eq_self

theorem commandWord_eq_of_fields {v : Word} {rsv : BitVec 25} {nbytes : BitVec 3} {op : BitVec 4}
    (hrsv : rsvField v = rsv) (hnbytes : nbytesField v = nbytes) (hop : opField v = op) :
    commandWord rsv nbytes op = v := by
  rw [← hrsv, ← hnbytes, ← hop, commandWord_fields]

/-! ## The decoder and the encoder undo each other (R86) -/

theorem decode_encode {i : Instr} (h : i.wellFormed = true) : decode (encode i) = .ok i := by
  cases i with
  | append n =>
    have hn : n.toNat ≤ 4 := of_decide_eq_true h
    simp [decode, encode, hn]
  | nop | init | finalize | clrerr => simp [decode, encode]

theorem wellFormed_and_encode_of_decode {v : Word} {i : Instr} (h : decode v = .ok i) :
    i.wellFormed = true ∧ encode i = v := by
  unfold decode at h
  split_ifs at h with hrsv hop hn hnb h0 h1 h3 h4
  all_goals cases h
  · exact ⟨decide_eq_true hn, commandWord_eq_of_fields (not_not.mp hrsv) rfl hop⟩
  · exact ⟨rfl, commandWord_eq_of_fields (not_not.mp hrsv) (not_not.mp hnb) h0⟩
  · exact ⟨rfl, commandWord_eq_of_fields (not_not.mp hrsv) (not_not.mp hnb) h1⟩
  · exact ⟨rfl, commandWord_eq_of_fields (not_not.mp hrsv) (not_not.mp hnb) h3⟩
  · exact ⟨rfl, commandWord_eq_of_fields (not_not.mp hrsv) (not_not.mp hnb) h4⟩

theorem decode_eq_ok_iff {v : Word} {i : Instr} : decode v = .ok i ↔ i.wellFormed = true ∧ encode i = v :=
  ⟨wellFormed_and_encode_of_decode, fun ⟨hwf, hv⟩ => hv ▸ decode_encode hwf⟩

theorem decode_eq_ok_iff_of_wellFormed {i : Instr} (h : i.wellFormed = true) {v w : Word} (hw : encode i = w) :
    decode v = .ok i ↔ v = w := by
  rw [decode_eq_ok_iff, hw]
  exact ⟨fun ⟨_, hv⟩ => hv.symm, fun hv => ⟨h, hv.symm⟩⟩

theorem decode_error_iff_not_ok {v : Word} : (∃ e, decode v = .error e) ↔ ¬ ∃ i, decode v = .ok i := by
  cases decode v <;> simp

/-! ## The nine legal words (R86) -/

/-- The commands of R82, one for each legal word. -/
def legalCommands : List Instr :=
  [.nop, .init, .append 0, .append 1, .append 2, .append 3, .append 4, .finalize, .clrerr]

theorem append_mem_legalCommands (n : BitVec 3) (h : n.toNat ≤ 4) : Instr.append n ∈ legalCommands := by
  revert n
  decide

theorem mem_legalCommands_iff {i : Instr} : i ∈ legalCommands ↔ i.wellFormed = true := by
  constructor
  · revert i
    decide
  · intro h
    cases i with
    | append n => exact append_mem_legalCommands n (of_decide_eq_true h)
    | nop | init | finalize | clrerr => decide

theorem map_encode_legalCommands : legalCommands.map encode =
    [0x00000000, 0x00000001, 0x00000002, 0x00000012, 0x00000022, 0x00000032, 0x00000042, 0x00000003, 0x00000004] := by
  decide

theorem exists_decode_ok_iff_mem {v : Word} : (∃ i, decode v = .ok i) ↔ v ∈ legalCommands.map encode := by
  simp only [decode_eq_ok_iff, List.mem_map, mem_legalCommands_iff]

/-- Settles O2: a command's word is `encode` of it, and a word is rejected when it is no legal command's. -/
theorem legalWordsAreTheNine : Obligations.LegalWordsAreTheNine := by
  intro v
  refine ⟨?nop, ?init, ?append0, ?append1, ?append2, ?append3, ?append4, ?finalize, ?clrerr, ?illegal⟩
  case illegal => rw [decode_error_iff_not_ok, exists_decode_ok_iff_mem, map_encode_legalCommands]
  all_goals exact decode_eq_ok_iff_of_wellFormed (by decide) (by decide)

/-! ## The illegal words (R84) -/

theorem toNat_shiftRight_eq_rsvField (v : Word) : (v >>> 7).toNat = (rsvField v).toNat := by
  rw [rsvField, BitVec.extractLsb'_toNat, BitVec.toNat_ushiftRight, Nat.shiftRight_eq_div_pow]
  omega

theorem toNat_mask_eq_nbytesField (v : Word) : (v >>> 4 &&& 0x7).toNat = (nbytesField v).toNat := by
  rw [nbytesField, BitVec.extractLsb'_toNat, BitVec.toNat_and, BitVec.toNat_ushiftRight]
  exact Nat.and_two_pow_sub_one_eq_mod (v.toNat >>> 4) 3

theorem toNat_mask_eq_opField (v : Word) : (v &&& 0xF).toNat = (opField v).toNat := by
  rw [opField, BitVec.extractLsb'_toNat, BitVec.toNat_and]
  exact Nat.and_two_pow_sub_one_eq_mod v.toNat 4

open Machine

/-- `IllegalWord` with the fields of R81 in place of its shifts and masks. -/
theorem illegalWord_iff_fields {v : Word} : IllegalWord v ↔
    rsvField v ≠ 0 ∨ 5 ≤ (opField v).toNat ∨ (opField v ≠ 2 ∧ nbytesField v ≠ 0) ∨
      (opField v = 2 ∧ 5 ≤ (nbytesField v).toNat) := by
  simp only [IllegalWord, ne_eq, ← BitVec.toNat_inj, toNat_shiftRight_eq_rsvField, toNat_mask_eq_nbytesField,
    toNat_mask_eq_opField]
  rfl

/-- The OPs the decoder knows are those below 5; APPEND is left out, for the decoder asks about it before. -/
theorem five_le_of_unknown_op {op : BitVec 4} (h2 : op ≠ 2) (h0 : op ≠ 0) (h1 : op ≠ 1) (h3 : op ≠ 3) (h4 : op ≠ 4) :
    5 ≤ op.toNat := by
  bv_omega

theorem illegalWord_of_decode_error {v : Word} {e : Illegal} (h : decode v = .error e) : IllegalWord v := by
  rw [illegalWord_iff_fields]
  unfold decode at h
  split_ifs at h with hrsv hop hn hnb h0 h1 h3 h4
  · exact .inl hrsv
  · exact .inr (.inr (.inr ⟨hop, not_le.mp hn⟩))
  · exact .inr (.inr (.inl ⟨hop, hnb⟩))
  · exact .inr (.inl (five_le_of_unknown_op hop h0 h1 h3 h4))

theorem not_illegalWord_encode {i : Instr} (h : i.wellFormed = true) : ¬ IllegalWord (encode i) := by
  rw [illegalWord_iff_fields]
  cases i with
  | append n =>
    have hn : n.toNat < 5 := Nat.lt_succ_of_le (of_decide_eq_true h)
    simp [encode, hn]
  | nop | init | finalize | clrerr => simp [encode]

theorem decode_error_iff_illegalWord {v : Word} : (∃ e, decode v = .error e) ↔ IllegalWord v := by
  refine ⟨fun ⟨_, he⟩ => illegalWord_of_decode_error he, fun hv => decode_error_iff_not_ok.mpr fun ⟨_, hi⟩ => ?_⟩
  obtain ⟨hwf, rfl⟩ := decode_eq_ok_iff.mp hi
  exact not_illegalWord_encode hwf hv

theorem executeCommand_of_decode_error {v : Word} {e : Illegal} (h : decode v = .error e) (s : State) :
    executeCommand v s = .next (errorRecorded .illegalCmd v s) := by
  rw [executeCommand, h, raiseCmdError_eq]

/-- Settles O3: the decoder's rejections against R84's conditions, and the command port on a rejected word. -/
theorem illegalWordsTakeIllegalCmd : Obligations.IllegalWordsTakeIllegalCmd := by
  intro v s
  refine ⟨decode_error_iff_illegalWord, fun hv => ?_⟩
  obtain ⟨e, he⟩ := decode_error_iff_illegalWord.mpr hv
  exact executeCommand_of_decode_error he s

end Sys2Proof
end

section
/-! PROOFS. The 64-bit bit counter: what it stands at as a number, and that it grows by what is added to it
(spec/40_commands.md R104). -/

namespace Sys2Proof.Machine

theorem bitCount_toNat (s : State) : s.bitCount.toNat = s.bitcntHi.toNat * 2 ^ 32 + s.bitcntLo.toNat := by
  rw [State.bitCount, BitVec.toNat_append, ← Nat.shiftLeft_add_eq_or_of_lt s.bitcntLo.isLt, Nat.shiftLeft_eq]

/-- R104's comparison finds the carry out of the low half. -/
theorem add_lt_right_iff_carry (lo d : Word) : lo + d < d ↔ 2 ^ 32 ≤ lo.toNat + d.toNat := by
  rw [BitVec.lt_def, BitVec.toNat_add]
  omega

@[simp] theorem bitCountAdd_bitcntLo (d : Word) (s : State) : (bitCountAdd d s).bitcntLo = s.bitcntLo + d := rfl

theorem bitCountAdd_bitcntHi (d : Word) (s : State) : (bitCountAdd d s).bitcntHi =
    if 2 ^ 32 ≤ s.bitcntLo.toNat + d.toNat then s.bitcntHi + 1 else s.bitcntHi := by
  simp only [bitCountAdd_eq, add_lt_right_iff_carry]

theorem bitCountAdd_bitCount (d : Word) (s : State) : (bitCountAdd d s).bitCount = s.bitCount + d.setWidth 64 := by
  apply BitVec.eq_of_toNat_eq
  have hd : (d.setWidth 64).toNat = d.toNat := BitVec.toNat_setWidth_of_le (by decide)
  have hone : (1 : Word).toNat = 1 := rfl
  rw [BitVec.toNat_add, hd, bitCount_toNat, bitCount_toNat, bitCountAdd_bitcntLo, bitCountAdd_bitcntHi,
    BitVec.toNat_add]
  by_cases carry : 2 ^ 32 ≤ s.bitcntLo.toNat + d.toNat
  · rw [if_pos carry, BitVec.toNat_add, hone]
    omega
  · rw [if_neg carry]
    omega

/-- Settles O33: the sum of the counter, with R104's comparison as the carry, and the frame of `bitCountAdd_eq`. -/
theorem bitCounterAddsModulo : Obligations.BitCounterAddsModulo :=
  fun d s => ⟨bitCountAdd_bitCount d s, bitCountAdd_eq d s⟩

end Sys2Proof.Machine
end

section
/-! PROOFS. The commands without a STATE check: NOP, INIT, APPEND 0 and CLRERR take effect while BUSY = 0, whatever
STATE is, and every well-formed command takes the BUSY error while BUSY = 1 (spec/40_commands.md R100 to R108). -/

namespace Sys2Proof.Machine

/-! ## While a compression runs (R100) -/

theorem exec_of_run {i : Instr} (hwf : i.wellFormed = true) {v : Word} (hv : encode i = v) {s : State}
    (h : s.cphase = .run) : exec i s = .next (errorRecorded .busy v s) := by
  subst hv
  cases i with
  | nop => rw [exec, execNop, acceptWhenIdle_of_run h]
  | init => rw [exec, execInit, acceptWhenIdle_of_run h]
  | append n =>
    have hn : n.toNat ≤ 4 := of_decide_eq_true hwf
    rw [exec, execAppend, if_pos hn, acceptWhenIdle_of_run h]
  | finalize => rw [exec, execFinalize, acceptWhenIdle_of_run h]
  | clrerr => rw [exec, execClrerr, acceptWhenIdle_of_run h]

/-! ## While the compression unit is idle (R101, R102, R105, R108) -/

theorem exec_nop_of_idle {s : State} (h : s.cphase = .idle) : exec .nop s = .next s := by
  rw [exec, execNop, acceptWhenIdle_of_idle h, id]

theorem exec_init_of_idle {s : State} (h : s.cphase = .idle) : exec .init s = .next (initEffect s) := by
  rw [exec, execInit, acceptWhenIdle_of_idle h]

theorem exec_append_zero_of_idle {s : State} (h : s.cphase = .idle) : exec (.append 0) s = .next s := by
  rw [exec, execAppend, if_pos (by decide), acceptWhenIdle_of_idle h, if_pos (by decide)]

theorem exec_clrerr_of_idle {s : State} (h : s.cphase = .idle) : exec .clrerr s = .next (clearCmdError s) := by
  rw [exec, execClrerr, acceptWhenIdle_of_idle h]

/-! ## The effect of INIT (R102) -/

theorem initEffect_eq (s : State) : initEffect s = { s with
    acc := Config.engine.tables.iv, bitcntLo := 0, bitcntHi := 0, fill := 0, dstate := .absorb } := rfl

@[simp] theorem initEffect_cphase (s : State) : (initEffect s).cphase = s.cphase := rfl

theorem initEffect_idempotent (s : State) : initEffect (initEffect s) = initEffect s := rfl

theorem statusWord_initEffect_reset : statusWord (initEffect State.reset) = 0x00000002 := by decide

/-! ## The obligations -/

/-- Settles O8, from the meaning of NOP while idle and the BUSY error of every command. -/
theorem nopCompletes : Obligations.NopCompletes :=
  fun _ => ⟨exec_nop_of_idle, exec_of_run rfl (by decide)⟩

/-- Settles O9: an accepted INIT leaves `initEffect`, which is idempotent and leaves the unit idle for a second one. -/
theorem initCompletes : Obligations.InitCompletes := by
  refine ⟨fun s idle => ?accepted, fun s => exec_of_run rfl (by decide), ?afterReset⟩
  case accepted =>
    have second : exec .init (initEffect s) = .next (initEffect s) := by
      rw [exec_init_of_idle ((initEffect_cphase s).trans idle), initEffect_idempotent]
    exact ⟨initEffect s, exec_init_of_idle idle, initEffect_eq s, second⟩
  case afterReset =>
    exact ⟨initEffect State.reset, exec_init_of_idle rfl, statusWord_initEffect_reset⟩

/-- Settles O10, from the meaning of APPEND 0 while idle and the BUSY error of every command. -/
theorem appendZeroHasNoEffect : Obligations.AppendZeroHasNoEffect :=
  fun _ => ⟨exec_append_zero_of_idle, exec_of_run (by decide) (by decide)⟩

/-- Settles O18: the effect while idle is `clearCmdError`, which writes the three error registers alone. -/
theorem clrerrCompletes : Obligations.ClrerrCompletes := by
  refine fun s => ⟨fun idle => ?accepted, exec_of_run rfl (by decide)⟩
  rw [exec_clrerr_of_idle idle, clearCmdError_eq]

end Sys2Proof.Machine
end

section
/-! PROOFS. The compression unit computes the compression function: its mixing transitions run the step rule of
`mixSteps` on W, and the feed-forward adds the result into ACC (spec/41_compression.md R142, R146, R150, R154). -/

namespace Sys2Proof.Machine

/-! ## The mixing steps (R142, R146) -/

theorem mixSteps_succ {p : EngineParams} {x : BlockWords} {n : Nat} {w : Six} (h : n < 192) :
    mixSteps p x (n + 1) w = mixBody p ⟨n, h⟩ (mixSteps p x n w) x := by
  rw [mixSteps, dif_pos h]

/-- A mixing transition where W holds the first `n` mixing steps: W holds the first `n + 1`, and STEP advances. -/
theorem engineTurn_of_mixSteps (p : EngineParams) {s : State} {n : Nat} {w : Six} (hrun : s.cphase = .run)
    (hstep : s.stepNo = BitVec.ofNat 8 n) (hn : n < 192) (hw : s.w = mixSteps p s.x n w) :
    engineTurn p s = .next { s with w := mixSteps p s.x (n + 1) w, stepNo := BitVec.ofNat 8 (n + 1) } := by
  have hval : s.stepNo.toNat = n := by rw [hstep, BitVec.toNat_ofNat, Nat.mod_eq_of_lt (by omega)]
  have hnext : s.stepNo + 1 = BitVec.ofNat 8 (n + 1) := by rw [hstep, BitVec.ofNat_add]; rfl
  rw [engineTurn_of_mixing p hrun (hval ▸ hn), hnext, mixSteps_succ hn, ← hw]
  simp only [hval]

/-- The state `n` transitions after `StartCompress`, while the unit mixes: only W and STEP have moved on. -/
theorem engineRun_startCompress (p : EngineParams) (blk : BlockWords) (s : State) {n : Nat} (hn : n ≤ 192) :
    engineRun p n (startCompress blk s) = .next { startCompress blk s with
      w := mixSteps p blk n s.acc, stepNo := BitVec.ofNat 8 n } := by
  induction n with
  | zero => rfl
  | succ n ih =>
    rw [engineRun_succ, ih (by omega), andThen_next]
    exact engineTurn_of_mixSteps p rfl rfl (by omega) rfl

/-! ## The obligation -/

/-- Settles O29: 192 mixing transitions leave ACC as it was and put `mixSteps` of it in W, and the 193rd, the
feed-forward, adds the two. -/
theorem compressionComputesCompress : Obligations.CompressionComputesCompress := by
  intro p s blk
  have run := engineRun_succ p 192 (startCompress blk s)
  rw [engineRun_startCompress p blk s le_rfl, andThen_next, engineTurn_of_done p rfl rfl] at run
  exact ⟨_, run, feedForward_acc _⟩

end Sys2Proof.Machine
end

section
/-! PROOFS. The endian adapter octet by octet, and the words of the finalization block (spec/42_adapter_padding.md
R170, R176, R177; the byte-order helpers are those of spec/00_scope.md R13). -/

namespace Sys2Proof.Machine

/-! ## The byte-order helpers (R13)

`le32` is a union of shifted octets and `bswap32` a concatenation.  Writing `le32` as a concatenation too makes its
octets the parts of it, and `bswap32` the `le32` of the octets in reverse order. -/

/-- At each bit the octet that the bit lies in is compared with what the union leaves of it: the shift of every higher
octet gives 0 there, and every lower octet has ended. -/
theorem le32_eq_append (o0 o1 o2 o3 : Octet) : le32 o0 o1 o2 o3 = ((o3 ++ o2) ++ o1) ++ o0 := by
  refine BitVec.eq_of_getLsbD_eq fun i hi => ?_
  simp only [le32, BitVec.getLsbD_or, BitVec.getLsbD_shiftLeft, BitVec.getLsbD_setWidth, BitVec.getLsbD_append]
  split_ifs <;> grind

/-- The same concatenation nested to the right, the form that the library's rules for `extractLsb'` take apart from
the lowest octet up. -/
theorem le32_eq_cast (o0 o1 o2 o3 : Octet) : le32 o0 o1 o2 o3 = (o3 ++ (o2 ++ (o1 ++ o0))).cast rfl := by
  rw [le32_eq_append, BitVec.append_assoc, BitVec.append_assoc]
  rfl

theorem octetOf_le32 (o0 o1 o2 o3 : Octet) {k : Nat} (hk : k < 4) :
    octetOf (le32 o0 o1 o2 o3) k = #v[o0, o1, o2, o3][k] := by
  rw [octetOf, le32_eq_cast, BitVec.extractLsb'_cast]
  match k with
  | 0 | 1 | 2 | 3 =>
    simp (disch := decide) only [BitVec.extractLsb'_append_eq_of_add_le, BitVec.extractLsb'_append_eq_left,
      BitVec.extractLsb'_eq_self, Nat.reduceMul, -Nat.reduceAdd]
    rfl

theorem le32_octets_reversed (v : Word) :
    le32 (octetOf v 3) (octetOf v 2) (octetOf v 1) (octetOf v 0) = bswap32 v :=
  le32_eq_append ..

theorem setWidth_ushiftRight_eq_octetOf (v : Word) (k : Nat) : (v >>> (8 * k)).setWidth 8 = octetOf v k :=
  BitVec.setWidth_ushiftRight_eq_extractLsb

/-! ## The adapter (R170) -/

theorem adapter_getElem (b : Block) {j : Nat} (hj : j < 48) :
    (adapter b)[j] = le32 b[4 * j] b[4 * j + 1] b[4 * j + 2] b[4 * j + 3] :=
  Vector.getElem_ofFn hj

theorem octetOf_adapter (b : Block) {j k : Nat} (hj : j < 48) (hk : k < 4) :
    octetOf (adapter b)[j] k = b[4 * j + k] := by
  rw [adapter_getElem, octetOf_le32 _ _ _ _ hk]
  match k with
  | 0 | 1 | 2 | 3 => rfl

/-! ## The finalization block (R176) -/

theorem padOctet_zero (hi lo : Word) : padOctet hi lo 0 = 0xAA := rfl

theorem padOctet_eq_zero (hi lo : Word) {i : Nat} (h : 1 ≤ i) (h' : i < 184) : padOctet hi lo i = 0 := by
  rw [padOctet, if_neg (by omega), if_pos h']

theorem adapter_padBlock_getElem (hi lo : Word) {j : Nat} (hj : j < 48) :
    (adapter (padBlock hi lo))[j] = le32 (padOctet hi lo (4 * j)) (padOctet hi lo (4 * j + 1))
      (padOctet hi lo (4 * j + 2)) (padOctet hi lo (4 * j + 3)) := by
  simp only [adapter_getElem, padBlock, Vector.getElem_ofFn]

/-! ## The obligations -/

/-- Settles O31: the octets of a word of the adapter are the four octets it was assembled from. -/
theorem adapterIsLittleEndian : Obligations.AdapterIsLittleEndian := by
  intro b j k hj hk
  rw [setWidth_ushiftRight_eq_octetOf, octetOf_adapter b hj hk]

/-- Settles O32: word 0 holds the marker, words 1 to 45 lie within the zeros of the block, and the last two words
assemble big-endian octets little-endian, which reverses them. -/
theorem padBlockWords : Obligations.PadBlockWords := by
  intro hi lo
  refine ⟨?marker, fun j hj first last => ?zeros, ?high, ?low⟩
  case marker =>
    simp (disch := omega) only [adapter_padBlock_getElem, Nat.mul_zero, padOctet_zero, padOctet_eq_zero]
    rfl
  case zeros =>
    simp (disch := omega) only [adapter_padBlock_getElem, padOctet_eq_zero]
    rfl
  case high => rw [adapter_padBlock_getElem, ← le32_octets_reversed]; rfl
  case low => rw [adapter_padBlock_getElem, ← le32_octets_reversed]; rfl

end Sys2Proof.Machine
end

section
/-! PROOFS. The error a command word reports where several apply, in the order ILLEGAL_CMD, BUSY, then NOT_INIT or
AFTER_FINAL (spec/60_exceptions.md R204). -/

namespace Sys2Proof.Machine

/-! ## ERRCODE after each outcome of a command (R203) -/

theorem errorRecorded_errcode {code : ErrCode} {v : Word} {s : State} (h : s.err = false) :
    (errorRecorded code v s).errcode = code := by
  rw [errorRecorded_of_no_err h]

@[simp] theorem clearCmdError_errcode (s : State) : (clearCmdError s).errcode = .none := rfl

@[simp] theorem initEffect_errcode (s : State) : (initEffect s).errcode = s.errcode := rfl

@[simp] theorem appendEffect_errcode (n : Nat) (s : State) : (appendEffect n s).errcode = s.errcode := by
  rw [appendEffect, bitCountAdd_eq, absorbList_frame]

@[simp] theorem finalizeEffect_errcode (s : State) : (finalizeEffect s).errcode = s.errcode := by
  by_cases h : s.fill = 0
  · rw [finalizeEffect_of_empty h]
  · rw [finalizeEffect_of_partial h]

/-! ## The legal words at the command port (R84, R100) -/

theorem exists_wellFormed_of_not_illegalWord {v : Word} (h : ¬ IllegalWord v) :
    ∃ i : Instr, i.wellFormed = true ∧ encode i = v := by
  rw [← decode_error_iff_illegalWord, decode_error_iff_not_ok, not_not] at h
  simpa only [decode_eq_ok_iff] using h

theorem executeCommand_encode {i : Instr} (h : i.wellFormed = true) (s : State) :
    executeCommand (encode i) s = exec i s := by
  rw [executeCommand, decode_encode h]

theorem executeCommand_of_run {v : Word} {s : State} (hv : ¬ IllegalWord v) (h : s.cphase = .run) :
    executeCommand v s = .next (errorRecorded .busy v s) := by
  obtain ⟨i, hwf, rfl⟩ := exists_wellFormed_of_not_illegalWord hv
  rw [executeCommand_encode hwf, exec_of_run hwf rfl h]

/-! ## The commands with a STATE check (R103, R106) -/

/-- The commands that need an open message. -/
def messageCommands : List Instr := [.append 1, .append 2, .append 3, .append 4, .finalize]

theorem map_encode_messageCommands :
    messageCommands.map encode = [0x00000012, 0x00000022, 0x00000032, 0x00000042, 0x00000003] := by
  decide

theorem wellFormed_of_mem_messageCommands : ∀ i ∈ messageCommands, i.wellFormed = true := by
  decide

theorem mem_messageCommands_cases {i : Instr} (h : i ∈ messageCommands) :
    (∃ n : BitVec 3, i = .append n ∧ n.toNat ≠ 0 ∧ n.toNat ≤ 4) ∨ i = .finalize := by
  simp only [messageCommands, List.mem_cons, List.not_mem_nil, or_false] at h
  rcases h with rfl | rfl | rfl | rfl | rfl
  case inr.inr.inr.inr => exact .inr rfl
  all_goals exact .inl ⟨_, rfl, by decide, by decide⟩

theorem exec_append_of_idle {n : BitVec 3} {s : State} (h0 : n.toNat ≠ 0) (h4 : n.toNat ≤ 4) (h : s.cphase = .idle) :
    exec (.append n) s = .next (requireMessage (encode (.append n)) (appendEffect n.toNat) s) := by
  rw [exec, execAppend, if_pos h4, acceptWhenIdle_of_idle h, if_neg h0]

theorem exec_finalize_of_idle {s : State} (h : s.cphase = .idle) :
    exec .finalize s = .next (requireMessage (encode .finalize) finalizeEffect s) := by
  rw [exec, execFinalize, acceptWhenIdle_of_idle h]

/-- While idle such a command makes the STATE check, and what it does past the check reports no error. -/
theorem exec_messageCommand_of_idle {i : Instr} {s : State} (hi : i ∈ messageCommands) (h : s.cphase = .idle) :
    ∃ body : State → State, (body s).errcode = s.errcode ∧ exec i s = .next (requireMessage (encode i) body s) := by
  rcases mem_messageCommands_cases hi with ⟨n, rfl, h0, h4⟩ | rfl
  · exact ⟨_, appendEffect_errcode n.toNat s, exec_append_of_idle h0 h4 h⟩
  · exact ⟨_, finalizeEffect_errcode s, exec_finalize_of_idle h⟩

theorem requireMessage_errcode {v : Word} {body : State → State} {s : State} (herr : s.err = false)
    (hbody : (body s).errcode = s.errcode) :
    (s.dstate = .uninit → (requireMessage v body s).errcode = .notInit) ∧
    (s.dstate = .finalized → (requireMessage v body s).errcode = .afterFinal) ∧
    (s.dstate ≠ .uninit → s.dstate ≠ .finalized → (requireMessage v body s).errcode = s.errcode) := by
  refine ⟨fun hd => ?uninit, fun hd => ?finalized, fun hu hf => ?opened⟩
  case uninit => rw [requireMessage_of_uninit hd, errorRecorded_errcode herr]
  case finalized => rw [requireMessage_of_finalized hd, errorRecorded_errcode herr]
  case opened => rw [requireMessage_of_open hu hf, hbody]

/-! ## The commands without a STATE check (R101, R102, R105, R108) -/

theorem mem_legalCommands_cases : ∀ i ∈ legalCommands,
    i ∈ messageCommands ∨ i = .nop ∨ i = .init ∨ i = .append 0 ∨ i = .clrerr := by
  decide

theorem exec_errcode_of_not_messageCommand {i : Instr} {s : State} (hwf : i.wellFormed = true)
    (hi : i ∉ messageCommands) (h : s.cphase = .idle) (hcode : s.errcode = .none) :
    ∃ t, exec i s = .next t ∧ t.errcode = .none := by
  rcases mem_legalCommands_cases i (mem_legalCommands_iff.mpr hwf) with hmem | rfl | rfl | rfl | rfl
  · exact absurd hmem hi
  · exact ⟨s, exec_nop_of_idle h, hcode⟩
  · exact ⟨initEffect s, exec_init_of_idle h, (initEffect_errcode s).trans hcode⟩
  · exact ⟨s, exec_append_zero_of_idle h, hcode⟩
  · exact ⟨clearCmdError s, exec_clrerr_of_idle h, clearCmdError_errcode s⟩

/-! ## The obligation -/

/-- Settles O21: an illegal word and a legal one while BUSY record their error at once; while idle the five words of
`messageCommands` answer by the STATE check, and the other legal words report nothing. -/
theorem commandErrorPriority : Obligations.CommandErrorPriority := by
  intro s t v herr hcode hexec
  rw [← map_encode_messageCommands]
  refine ⟨fun hill => ?illegal, fun hv hrun => ?busy, fun _ hidle hmem => ?stateCheck, fun hv hidle hmem => ?noCheck⟩
  case illegal =>
    rw [(illegalWordsTakeIllegalCmd v s).2 hill] at hexec
    cases hexec
    exact errorRecorded_errcode herr
  case busy =>
    rw [executeCommand_of_run hv hrun] at hexec
    cases hexec
    exact errorRecorded_errcode herr
  case stateCheck =>
    obtain ⟨i, hi, rfl⟩ := List.mem_map.mp hmem
    obtain ⟨body, hbody, hmeaning⟩ := exec_messageCommand_of_idle hi hidle
    rw [executeCommand_encode (wellFormed_of_mem_messageCommands i hi), hmeaning] at hexec
    cases hexec
    exact hcode ▸ requireMessage_errcode herr hbody
  case noCheck =>
    obtain ⟨i, hwf, rfl⟩ := exists_wellFormed_of_not_illegalWord hv
    have hi : i ∉ messageCommands := fun hi => hmem (List.mem_map_of_mem hi)
    obtain ⟨u, hmeaning, hu⟩ := exec_errcode_of_not_messageCommand hwf hi hidle hcode
    rw [executeCommand_encode hwf, hmeaning] at hexec
    cases hexec
    exact hu

end Sys2Proof.Machine
end

section
/-! PROOFS. Decoding and encoding are one relation between words and well-formed commands (spec/30_encoding.md R81 to
R86), and the words of R82 written out. -/

namespace Sys2Proof

/-- Settles O1: the encoding of a well-formed command decodes to it, and a decoded word is its command's encoding. -/
theorem decodeEncodeAgree : Obligations.DecodeEncodeAgree :=
  fun _ _ => decode_eq_ok_iff

/-- Settles O4: each of the five words is the encoding of its command. -/
theorem writtenOutWordsDecode : Obligations.WrittenOutWordsDecode := by
  refine ⟨?nop, ?init, ?append3, ?finalize, ?clrerr⟩
  all_goals exact (decode_eq_ok_iff_of_wellFormed rfl (by decide)).mpr rfl

end Sys2Proof
end

section
/-! PROOFS. An accepted APPEND: where its octets go, when it completes the block, and what it leaves unchanged
(spec/40_commands.md R103, R104, R110, R111). -/

namespace Sys2Proof.Machine

/-! ## The bit counter of an APPEND (R104) -/

@[simp] theorem absorbList_bitCount (os : List Octet) (s : State) : (absorbList os s).bitCount = s.bitCount := by
  rw [absorbList_frame]
  rfl

theorem appendEffect_bitCount {n : Nat} (hn : 8 * n < 2 ^ 32) (s : State) :
    (appendEffect n s).bitCount = s.bitCount + BitVec.ofNat 64 (8 * n) := by
  have width : (BitVec.ofNat 32 (8 * n)).setWidth 64 = BitVec.ofNat 64 (8 * n) :=
    BitVec.eq_of_toNat_eq (by simp only [BitVec.toNat_setWidth, BitVec.toNat_ofNat]; omega)
  rw [appendEffect, bitCountAdd_bitCount, absorbList_bitCount, width]

/-! ## The octets of an APPEND (R110, R111) -/

@[simp] theorem appendEffect_fill (n : Nat) (s : State) :
    (appendEffect n s).fill = (absorbList (operandOctets s n) s).fill := rfl

@[simp] theorem appendEffect_fillbuf (n : Nat) (s : State) :
    (appendEffect n s).fillbuf = (absorbList (operandOctets s n) s).fillbuf := rfl

section Within

variable {n : Nat} {s : State} (h : s.fill.toNat + n < 192)
include h

theorem appendEffect_within_frame : appendEffect n s = { s with
    fillbuf := (appendEffect n s).fillbuf, fill := (appendEffect n s).fill,
    bitcntLo := (appendEffect n s).bitcntLo, bitcntHi := (appendEffect n s).bitcntHi } := by
  obtain ⟨frame, -, -⟩ := absorbList_within (operandOctets s n) s (by simpa using h)
  rw [appendEffect, frame]
  rfl

theorem appendEffect_within_fill : (appendEffect n s).fill.toNat = s.fill.toNat + n := by
  obtain ⟨-, fill, -⟩ := absorbList_within (operandOctets s n) s (by simpa using h)
  simpa using fill

theorem appendEffect_within_fillbuf {i : Nat} (hi : i < 192) : (appendEffect n s).fillbuf[i] =
    if s.fill.toNat ≤ i ∧ i < s.fill.toNat + n then octetOf s.data (i - s.fill.toNat) else s.fillbuf[i] := by
  obtain ⟨-, -, octets⟩ := absorbList_within (operandOctets s n) s (by simpa using h)
  simp only [appendEffect_fillbuf, octets i hi, operandOctets_length]
  split
  case isTrue => exact operandOctets_getD (by omega)
  case isFalse => rfl

end Within

/-- The block that an APPEND completes: the octets buffered, and after them the first octets of DATA. -/
def completedBlock (s : State) : Block :=
  Vector.ofFn fun i : Fin 192 =>
    if s.fill.toNat ≤ i.val then octetOf s.data (i.val - s.fill.toNat) else s.fillbuf[i.val]

theorem completedBlock_getElem (s : State) {i : Nat} (hi : i < 192) : (completedBlock s)[i] =
    if s.fill.toNat ≤ i then octetOf s.data (i - s.fill.toNat) else s.fillbuf[i] :=
  Vector.getElem_ofFn hi

section Completing

variable {n : Nat} {s : State} (hfill : s.fill.toNat ≤ 191) (h : 192 ≤ s.fill.toNat + n) (hn : n ≤ 192)
include hfill h hn

/-- `absorbList_crossing` at the octets of an APPEND, with the block it hands over by name. -/
theorem absorbList_completing :
    absorbList (operandOctets s n) s = { s with
      x := adapter (completedBlock s), w := s.acc, cphase := .run, stepNo := 0,
      fillbuf := (absorbList (operandOctets s n) s).fillbuf, fill := (absorbList (operandOctets s n) s).fill } ∧
    (absorbList (operandOctets s n) s).fill.toNat = s.fill.toNat + n - 192 ∧
    ∀ i (hi : i < 192), (absorbList (operandOctets s n) s).fillbuf[i] =
      if i < s.fill.toNat + n - 192 then octetOf s.data (192 - s.fill.toNat + i) else (completedBlock s)[i] := by
  have hlen := operandOctets_length s n
  obtain ⟨b, block, frame, fill, left⟩ :=
    absorbList_crossing (operandOctets s n) s hfill (by omega) (by omega)
  rw [hlen] at fill
  have hb : b = completedBlock s := by
    refine Vector.ext fun i hi => ?_
    rw [block i hi, completedBlock_getElem s hi]
    split
    case isTrue => exact operandOctets_getD (by omega)
    case isFalse => rfl
  subst hb
  refine ⟨frame, fill, fun i hi => ?_⟩
  rw [left i hi, hlen]
  split
  case isTrue => exact operandOctets_getD (by omega)
  case isFalse => rfl

theorem appendEffect_completing_frame : appendEffect n s = { s with
    x := adapter (completedBlock s), w := s.acc, cphase := .run, stepNo := 0,
    fillbuf := (appendEffect n s).fillbuf, fill := (appendEffect n s).fill,
    bitcntLo := (appendEffect n s).bitcntLo, bitcntHi := (appendEffect n s).bitcntHi } := by
  obtain ⟨frame, -, -⟩ := absorbList_completing hfill h hn
  rw [appendEffect, frame]
  rfl

theorem appendEffect_completing_fill : (appendEffect n s).fill.toNat = s.fill.toNat + n - 192 :=
  (absorbList_completing hfill h hn).2.1

theorem appendEffect_completing_fillbuf {i : Nat} (hi : i < 192) : (appendEffect n s).fillbuf[i] =
    if i < s.fill.toNat + n - 192 then octetOf s.data (192 - s.fill.toNat + i) else (completedBlock s)[i] :=
  (absorbList_completing hfill h hn).2.2 i hi

end Completing

/-! ## The command (R103) -/

theorem exec_append_of_absorb {n : BitVec 3} {s : State} (idle : s.cphase = .idle) (absorbing : s.dstate = .absorb)
    (h1 : 1 ≤ n.toNat) (h4 : n.toNat ≤ 4) : exec (.append n) s = .next (appendEffect n.toNat s) := by
  rw [exec_append_of_idle (by omega) h4 idle, requireMessage_of_open (by simp [absorbing]) (by simp [absorbing])]

/-- Settles O11, from the three facts about an APPEND within the block and the sum of the counter. -/
theorem appendWithinBlock : Obligations.AppendWithinBlock := by
  intro s n idle absorbing h1 h4 h
  exact ⟨appendEffect n.toNat s, exec_append_of_absorb idle absorbing h1 h4, appendEffect_within_frame h,
    appendEffect_within_fill h, fun i hi => appendEffect_within_fillbuf h hi, appendEffect_bitCount (by omega) s⟩

/-- Settles O12: the block handed over is `completedBlock`. -/
theorem appendCompletesBlock : Obligations.AppendCompletesBlock := by
  intro s n idle absorbing h1 h4 hfill h
  exact ⟨appendEffect n.toNat s, completedBlock s, exec_append_of_absorb idle absorbing h1 h4,
    fun i hi => completedBlock_getElem s hi, appendEffect_completing_frame hfill h (by omega),
    appendEffect_completing_fill hfill h (by omega),
    fun i hi => appendEffect_completing_fillbuf hfill h (by omega) hi, appendEffect_bitCount (by omega) s⟩

end Sys2Proof.Machine
end

section
/-! PROOFS. FINALIZE, and the commands that are rejected (spec/40_commands.md R103, R106; spec/60_exceptions.md R200
to R208). -/

namespace Sys2Proof.Machine

/-! ## FINALIZE with a message open (R106) -/

theorem exec_finalize_of_absorb {s : State} (idle : s.cphase = .idle) (absorbing : s.dstate = .absorb) :
    exec .finalize s = .next (finalizeEffect s) := by
  rw [exec_finalize_of_idle idle, requireMessage_of_open (by simp [absorbing]) (by simp [absorbing])]

/-- The words of the finalization block as one case distinction (R177). -/
theorem adapter_padBlock_words (hi lo : Word) {j : Nat} (hj : j < 48) : (adapter (padBlock hi lo))[j] =
    if j = 0 then 0x000000AA else if j = 46 then bswap32 hi else if j = 47 then bswap32 lo else 0 := by
  obtain ⟨marker, zeros, high, low⟩ := padBlockWords hi lo
  split_ifs with h0 h46 h47
  · subst h0; exact marker
  · subst h46; exact high
  · subst h47; exact low
  · exact zeros j hj (by omega) (by omega)

theorem octetOf_adapter_zeroFill (b : Block) (n : Nat) {j k : Nat} (hj : j < 48) (hk : k < 4) :
    octetOf (adapter (zeroFill b n))[j] k = if 4 * j + k < n then b[4 * j + k] else 0 := by
  rw [octetOf_adapter _ hj hk, zeroFill, Vector.getElem_ofFn]

/-- Settles O15: with FILL = 0 the effect is the start of the finalization block. -/
theorem finalizeOnEmptyBuffer : Obligations.FinalizeOnEmptyBuffer := by
  intro s idle absorbing empty
  refine ⟨finalizeEffect s, exec_finalize_of_absorb idle absorbing, ?_⟩
  rw [finalizeEffect_of_empty empty]
  exact ⟨rfl, fun j hj => adapter_padBlock_words s.bitcntHi s.bitcntLo hj⟩

/-- Settles O16: with FILL not 0 the effect is the start of the zero-filled partial block. -/
theorem finalizeOnPartialBlock : Obligations.FinalizeOnPartialBlock := by
  intro s idle absorbing nonempty
  refine ⟨finalizeEffect s, exec_finalize_of_absorb idle absorbing, ?_⟩
  rw [finalizeEffect_of_partial nonempty]
  exact ⟨rfl, fun j k hj hk => octetOf_adapter_zeroFill s.fillbuf s.fill.toNat hj hk⟩

/-! ## Rejected commands (R84, R201) -/

/-- The word of an APPEND from its NBYTES (R81, R82). -/
theorem encode_append (n : BitVec 3) : encode (.append n) = n.setWidth 32 <<< 4 ||| 0x2 := by
  revert n
  decide

/-- Settles O13: the STATE check of APPEND in the two STATEs that have no message open. -/
theorem appendRejectedByState : Obligations.AppendRejectedByState := by
  intro s n idle h1 h4
  rw [exec_append_of_idle (by omega) h4 idle, ← encode_append]
  exact ⟨fun hd => by rw [requireMessage_of_uninit hd], fun hd => by rw [requireMessage_of_finalized hd]⟩

/-- Settles O14: the check of NBYTES comes before every other. -/
theorem appendOfTooManyIsIllegal : Obligations.AppendOfTooManyIsIllegal := by
  intro s n h5
  rw [exec, execAppend, if_neg (by omega), raiseCmdError_eq, encode_append]

/-- Settles O17: the STATE check of FINALIZE in the two STATEs that have no message open. -/
theorem finalizeRejectedByState : Obligations.FinalizeRejectedByState := by
  intro s idle
  have word : encode .finalize = 0x00000003 := by decide
  rw [exec_finalize_of_idle idle, word]
  exact ⟨fun hd => by rw [requireMessage_of_uninit hd], fun hd => by rw [requireMessage_of_finalized hd]⟩

/-- Settles O19, from what the command port does with a legal word while a compression runs. -/
theorem busyRejectsEveryCommand : Obligations.BusyRejectsEveryCommand :=
  fun _ _ run legal => executeCommand_of_run legal run

/-! ## No command stops the machine (R200) -/

theorem exec_next (i : Instr) (s : State) : ∃ t, exec i s = .next t := by
  cases i with
  | nop | init | append n | finalize | clrerr => exact ⟨_, rfl⟩

theorem executeCommand_next (v : Word) (s : State) : ∃ t, executeCommand v s = .next t := by
  cases hd : decode v with
  | ok i =>
    obtain ⟨hwf, rfl⟩ := decode_eq_ok_iff.mp hd
    rw [executeCommand_encode hwf]
    exact exec_next i s
  | error e => exact ⟨_, executeCommand_of_decode_error hd s⟩

/-- Settles O22: a legal word runs a command, and every command answers a next state. -/
theorem commandsNeverStop : Obligations.CommandsNeverStop :=
  fun s v => executeCommand_next v s

/-! ## The first error is kept (R203, R208) -/

/-- The three error registers hold the same in both states. -/
def SameErrors (s t : State) : Prop := t.err = s.err ∧ t.errcode = s.errcode ∧ t.errcmd = s.errcmd

theorem SameErrors.refl (s : State) : SameErrors s s := ⟨rfl, rfl, rfl⟩

theorem SameErrors.trans {s t u : State} (h : SameErrors s t) (h' : SameErrors t u) : SameErrors s u := by
  obtain ⟨e1, e2, e3⟩ := h
  obtain ⟨f1, f2, f3⟩ := h'
  exact ⟨f1.trans e1, f2.trans e2, f3.trans e3⟩

theorem initEffect_sameErrors (s : State) : SameErrors s (initEffect s) := ⟨rfl, rfl, rfl⟩

theorem appendEffect_sameErrors (n : Nat) (s : State) : SameErrors s (appendEffect n s) := by
  rw [appendEffect, absorbList_frame]
  exact ⟨rfl, rfl, rfl⟩

theorem finalizeEffect_sameErrors (s : State) : SameErrors s (finalizeEffect s) := by
  by_cases empty : s.fill = 0
  · rw [finalizeEffect_of_empty empty]; exact ⟨rfl, rfl, rfl⟩
  · rw [finalizeEffect_of_partial empty]; exact ⟨rfl, rfl, rfl⟩

theorem errorRecorded_sameErrors {code : ErrCode} {v : Word} {s : State} (h : s.err = true) :
    SameErrors s (errorRecorded code v s) := by
  rw [errorRecorded_of_err h]
  exact SameErrors.refl s

/-- With an error recorded, only a CLRERR that is accepted changes an error register. -/
theorem exec_sameErrors {i : Instr} {s t : State} (h : s.err = true) (hi : i ≠ .clrerr ∨ s.cphase = .run)
    (hexec : exec i s = .next t) : SameErrors s t := by
  rcases exec_cases hexec with ⟨rfl, -⟩ | ⟨rfl, -⟩ | ⟨rfl, -⟩ | ⟨rfl, -⟩ | ⟨rfl, -⟩ | ⟨rfl, -, -⟩ |
    ⟨-, -, -, n, -, -, -, rfl⟩ | ⟨-, -, -, -, rfl⟩ | ⟨rfl, idle, rfl⟩
  · exact SameErrors.refl _
  · exact errorRecorded_sameErrors h
  · exact errorRecorded_sameErrors h
  · exact errorRecorded_sameErrors h
  · exact errorRecorded_sameErrors h
  · exact initEffect_sameErrors s
  · exact appendEffect_sameErrors n.toNat s
  · exact finalizeEffect_sameErrors s
  · rcases hi with hi | run
    · exact absurd rfl hi
    · rw [idle] at run; cases run

/-- With an error recorded, a command of `messageCommands` changes nothing where no message is open. -/
theorem exec_messageCommand_of_no_message {i : Instr} {s t : State} (h : s.err = true) (hi : i ∈ messageCommands)
    (hd : s.dstate = .uninit ∨ s.dstate = .finalized) (hexec : exec i s = .next t) : t = s := by
  cases hc : s.cphase with
  | run =>
    rw [exec_of_run (wellFormed_of_mem_messageCommands i hi) rfl hc, errorRecorded_of_err h] at hexec
    cases hexec
    rfl
  | idle =>
    obtain ⟨body, -, meaning⟩ := exec_messageCommand_of_idle hi hc
    rw [meaning] at hexec
    cases hexec
    rcases hd with hd | hd
    · rw [requireMessage_of_uninit hd, errorRecorded_of_err h]
    · rw [requireMessage_of_finalized hd, errorRecorded_of_err h]

/-- Settles O20: an illegal word and a word written while BUSY = 1 record their error over the one recorded, which
leaves the state as it is; any other word is a command, and its cases are those of `exec_sameErrors`. -/
theorem firstErrorIsKept : Obligations.FirstErrorIsKept := by
  intro s t v herr hexec
  have rejected : (IllegalWord v ∨ s.cphase = .run) → t = s := by
    intro h
    have answer : ∃ code, executeCommand v s = .next (errorRecorded code v s) := by
      by_cases illegal : IllegalWord v
      · exact ⟨_, (illegalWordsTakeIllegalCmd v s).2 illegal⟩
      · exact ⟨_, executeCommand_of_run illegal (h.resolve_left illegal)⟩
    obtain ⟨code, answer⟩ := answer
    rw [answer, errorRecorded_of_err herr] at hexec
    cases hexec
    rfl
  refine ⟨fun hv => ?kept, rejected, fun hd hmem => ?noMessage⟩
  case kept =>
    by_cases illegal : IllegalWord v
    · rw [rejected (.inl illegal)]; exact SameErrors.refl s
    obtain ⟨i, hwf, rfl⟩ := exists_wellFormed_of_not_illegalWord illegal
    rw [executeCommand_encode hwf] at hexec
    refine exec_sameErrors herr (hv.imp_left fun hne => ?_) hexec
    rintro rfl
    exact hne (by decide)
  case noMessage =>
    rw [← map_encode_messageCommands] at hmem
    obtain ⟨i, hi, rfl⟩ := List.mem_map.mp hmem
    rw [executeCommand_encode (wellFormed_of_mem_messageCommands i hi)] at hexec
    exact exec_messageCommand_of_no_message herr hi hd hexec

end Sys2Proof.Machine
end

section
/-! PROOFS. What one step does to the engine, said once as an inductive relation: the rules of the whole machine are
case analyses of it. -/

namespace Sys2Proof.Machine

/-! ## The same engine in two states (R20) -/

namespace SameEngine

variable {s t : State} (h : SameEngine s t)
include h

theorem acc : t.acc = s.acc := h.1
theorem bitcntLo : t.bitcntLo = s.bitcntLo := h.2.1
theorem bitcntHi : t.bitcntHi = s.bitcntHi := h.2.2.1
theorem fillbuf : t.fillbuf = s.fillbuf := h.2.2.2.1
theorem fill : t.fill = s.fill := h.2.2.2.2.1
theorem x : t.x = s.x := h.2.2.2.2.2.1
theorem w : t.w = s.w := h.2.2.2.2.2.2.1
theorem cphase : t.cphase = s.cphase := h.2.2.2.2.2.2.2.1
theorem stepNo : t.stepNo = s.stepNo := h.2.2.2.2.2.2.2.2.1
theorem dstate : t.dstate = s.dstate := h.2.2.2.2.2.2.2.2.2.1
theorem err : t.err = s.err := h.2.2.2.2.2.2.2.2.2.2.1
theorem errcode : t.errcode = s.errcode := h.2.2.2.2.2.2.2.2.2.2.2.1
theorem errcmd : t.errcmd = s.errcmd := h.2.2.2.2.2.2.2.2.2.2.2.2.1
theorem data : t.data = s.data := h.2.2.2.2.2.2.2.2.2.2.2.2.2

theorem bitCount : t.bitCount = s.bitCount := by rw [State.bitCount, h.bitcntHi, h.bitcntLo, State.bitCount]

end SameEngine

theorem resetEngine_sameEngine (s : State) : SameEngine State.reset (resetEngine s) := SameEngine.refl State.reset

/-! ## The command the coming step accepts (R100) -/

/-- The coming step is the host's write of `v` to CMD. -/
def WritesCmd (s : State) (v : Word) : Prop :=
  nextTurn s = .host ∧ nextHostOp s = some (.write { off := 0, bytes := 4 } v)

theorem acceptedCommand_of_run {s : State} (run : s.cphase = .run) : acceptedCommand s = none := by
  unfold acceptedCommand
  split
  · simp [State.busy, run]
  · rfl

theorem acceptedCommand_of_turn {s : State} (turn : nextTurn s ≠ .host) : acceptedCommand s = none := by
  unfold acceptedCommand
  split
  case h_1 host _ => exact absurd host turn
  case h_2 => rfl

theorem acceptedCommand_of_idle {s : State} {v : Word} {i : Instr} (h : WritesCmd s v) (idle : s.cphase = .idle)
    (hd : decode v = .ok i) : acceptedCommand s = some i := by
  obtain ⟨turn, op⟩ := h
  have port : Access.reg { off := 0, bytes := 4 } = .cmd := rfl
  simp [acceptedCommand, turn, op, Access.inWindow, Access.admitted, port, State.busy, idle, hd]

theorem acceptedCommand_of_illegal {s : State} {v : Word} {e : Illegal} (h : WritesCmd s v)
    (hd : decode v = .error e) : acceptedCommand s = none := by
  obtain ⟨turn, op⟩ := h
  simp [acceptedCommand, turn, op, hd]

theorem engineMoves_of_run {s : State} (turn : nextTurn s = .engine) (run : s.cphase = .run)
    (bound : s.stepNo.toNat ≤ 192) : EngineMoves s :=
  ⟨turn, by simp [engineReady, State.busy, run, bound]⟩

/-! ## What one step does to the engine (R15, R100, R151, R230) -/

/-- `StepEffect s t`: a step from `s` to `t` does to the engine what its constructor says.  The state `u` is `s` as
far as the engine goes; the host and the schedule have moved on. -/
inductive StepEffect (s : State) : State → Prop
  /-- The reset input. -/
  | reset {u : State} (hu : SameEngine s u) (turn : nextTurn s = .reset) : StepEffect s (resetEngine u)
  /-- No effect: the engine while idle, a host line that does not write DATA or CMD, a command without effect. -/
  | same {t : State} (ht : SameEngine s t) (turn : nextTurn s ≠ .reset)
      (command : ∀ i, acceptedCommand s = some i → i = .nop ∨ i = .append 0) : StepEffect s t
  /-- MixStep. -/
  | mix {u : State} (hu : SameEngine s u) (moves : EngineMoves s) (run : s.cphase = .run)
      (hn : u.stepNo.toNat < 192) : StepEffect s (mixStep Config.engine ⟨u.stepNo.toNat, hn⟩ u)
  /-- FeedForward. -/
  | feedForward {u : State} (hu : SameEngine s u) (moves : EngineMoves s) (run : s.cphase = .run)
      (last : s.stepNo = 192) : StepEffect s (feedForward u)
  /-- The host's write to DATA. -/
  | data {u : State} {v : Word} (hu : SameEngine s u) (turn : nextTurn s = .host)
      (op : nextHostOp s = some (.write { off := 4, bytes := 4 } v)) (command : acceptedCommand s = none) :
      StepEffect s (u.setData v)
  /-- A command word that takes an error. -/
  | error {u : State} {v : Word} (code : ErrCode) (hu : SameEngine s u) (writes : WritesCmd s v)
      (command : ∀ i, acceptedCommand s = some i →
        (s.dstate = .uninit ∨ s.dstate = .finalized) ∧ (i = .finalize ∨ ∃ n, i = .append n)) :
      StepEffect s (errorRecorded code v u)
  /-- INIT. -/
  | init {u : State} (hu : SameEngine s u) (idle : s.cphase = .idle) (command : acceptedCommand s = some .init) :
      StepEffect s (initEffect u)
  /-- APPEND of at least one octet. -/
  | append {u : State} {n : BitVec 3} (hu : SameEngine s u) (idle : s.cphase = .idle)
      (command : acceptedCommand s = some (.append n)) (h1 : 1 ≤ n.toNat) (h4 : n.toNat ≤ 4)
      (initialised : s.dstate ≠ .uninit) (unfinished : s.dstate ≠ .finalized) :
      StepEffect s (appendEffect n.toNat u)
  /-- FINALIZE. -/
  | finalize {u : State} (hu : SameEngine s u) (idle : s.cphase = .idle)
      (command : acceptedCommand s = some .finalize)
      (initialised : s.dstate ≠ .uninit) (unfinished : s.dstate ≠ .finalized) : StepEffect s (finalizeEffect u)
  /-- CLRERR. -/
  | clrerr {u : State} {v : Word} (hu : SameEngine s u) (idle : s.cphase = .idle) (writes : WritesCmd s v)
      (command : acceptedCommand s = some .clrerr) : StepEffect s (clearCmdError u)

/-- A command on its way through the command port, one case for each outcome in `exec_cases`. -/
theorem stepEffect_of_exec {s u t : State} {v : Word} {i : Instr} (hu : SameEngine s u) (writes : WritesCmd s v)
    (hd : decode v = .ok i) (hexec : exec i u = .next t) : StepEffect s t := by
  obtain ⟨hwf, rfl⟩ := decode_eq_ok_iff.mp hd
  have notReset : nextTurn s ≠ .reset := by rw [writes.1]; decide
  have accepted : u.cphase = .idle → acceptedCommand s = some i := fun idle =>
    acceptedCommand_of_idle writes (hu.cphase ▸ idle) hd
  have accepted_only : ∀ j, acceptedCommand s = some j → j = i := by
    intro j hj
    cases hc : s.cphase with
    | run => rw [acceptedCommand_of_run hc] at hj; cases hj
    | idle => rw [accepted (hu.cphase.trans hc)] at hj; cases hj; rfl
  rcases exec_cases hexec with ⟨rfl, hi⟩ | ⟨-, illFormed⟩ | ⟨rfl, run⟩ | ⟨rfl, -, hd, hi⟩ | ⟨rfl, -, hd, hi⟩ |
    ⟨rfl, idle, rfl⟩ | ⟨idle, hinit, hfin, n, rfl, h1, h4, rfl⟩ | ⟨idle, hinit, hfin, rfl, rfl⟩ | ⟨rfl, idle, rfl⟩
  · exact .same hu notReset fun j hj => accepted_only j hj ▸ hi
  · rw [hwf] at illFormed; cases illFormed
  · refine .error _ hu writes fun j hj => ?_
    rw [acceptedCommand_of_run (hu.cphase ▸ run)] at hj
    cases hj
  · exact .error _ hu writes fun j hj => ⟨.inl (hu.dstate ▸ hd), accepted_only j hj ▸ hi⟩
  · exact .error _ hu writes fun j hj => ⟨.inr (hu.dstate ▸ hd), accepted_only j hj ▸ hi⟩
  · exact .init hu (hu.cphase ▸ idle) (accepted idle)
  · exact .append hu (hu.cphase ▸ idle) (accepted idle) h1 h4 (hu.dstate ▸ hinit) (hu.dstate ▸ hfin)
  · exact .finalize hu (hu.cphase ▸ idle) (accepted idle) (hu.dstate ▸ hinit) (hu.dstate ▸ hfin)
  · exact .clrerr hu (hu.cphase ▸ idle) writes (accepted idle)

/-- `step_cases`, with the command port opened up. -/
theorem stepEffect_of_step {s t : State} (h : step s = .next t) : StepEffect s t := by
  have taken := takeTurn_sameEngine s
  have advanced := advanceHost_takeTurn_sameEngine s
  rcases step_cases h with ⟨turn, rfl⟩ | ⟨turn, -, rfl⟩ | ⟨turn, run, hn, rfl⟩ | ⟨turn, run, last, rfl⟩ |
    ⟨turn, same, command⟩ | ⟨turn, command, v, op, rfl⟩ | ⟨turn, v, op, port⟩
  · exact .reset taken turn
  · refine .same taken (by rw [turn]; decide) fun i hi => ?_
    rw [acceptedCommand_of_turn (by rw [turn]; decide)] at hi
    cases hi
  · have mixed := StepEffect.mix taken (engineMoves_of_run turn run hn.le) run (taken.stepNo.symm ▸ hn)
    simpa only [mixStep, State.setW, State.setSeq, taken.stepNo, taken.w, taken.x] using mixed
  · exact .feedForward taken (engineMoves_of_run turn run (by rw [last]; decide)) run last
  · refine .same same (by rw [turn]; decide) fun i hi => ?_
    rw [command] at hi
    cases hi
  · exact .data advanced turn op command
  · rcases executeCommand_cases port with ⟨i, hd, hexec⟩ | ⟨e, hd, rfl⟩
    · exact stepEffect_of_exec advanced ⟨turn, op⟩ hd hexec
    · refine .error _ advanced ⟨turn, op⟩ fun i hi => ?_
      rw [acceptedCommand_of_illegal ⟨turn, op⟩ hd] at hi
      cases hi

end Sys2Proof.Machine
end

section
/-! PROOFS. The invariants of the engine hold at reset and every step keeps them, so no transition of a state that
meets them faults (spec/10_state.md R27, R44). -/

namespace Sys2Proof.Machine

/-! ## The reset values (R45, R230) -/

/-- Settles O41: the reset state is written out in the model, and its vectors repeat 0. -/
theorem resetValues : Obligations.ResetValues := by
  refine ⟨fun i h => ?acc, rfl, rfl, fun i h => ?fillbuf, rfl, fun i h => ?x, fun i h => ?w, rfl, rfl, rfl, rfl, rfl,
    rfl, rfl⟩
  all_goals exact Vector.getElem_replicate h

/-- Settles O44: each clause speaks of scalar registers, which the reset state writes out. -/
theorem invHoldsAtReset : Obligations.InvHoldsAtReset := by
  unfold Obligations.InvHoldsAtReset EngineInv
  decide

/-! ## The invariants under each effect (R44) -/

theorem EngineInv.of_sameEngine {s t : State} (h : SameEngine s t) (hs : EngineInv s) : EngineInv t := by
  unfold EngineInv
  rw [h.fill, h.cphase, h.stepNo, h.dstate, h.err, h.errcode, h.errcmd]
  exact hs

/-- A message is open and no compression runs: the STATE is ABSORB. -/
theorem EngineInv.absorb_of_idle {s : State} (hs : EngineInv s) (idle : s.cphase = .idle)
    (initialised : s.dstate ≠ .uninit) (unfinished : s.dstate ≠ .finalized) : s.dstate = .absorb := by
  obtain ⟨-, -, -, finishing, -⟩ := hs
  rw [idle] at finishing
  cases hd : s.dstate <;> simp_all

theorem engineInv_mix {s : State} (hs : EngineInv s) (run : s.cphase = .run) (hn : s.stepNo.toNat < 192)
    (p : EngineParams) : EngineInv (mixStep p ⟨s.stepNo.toNat, hn⟩ s) := by
  obtain ⟨hfill, -, -, finishing, closed, empty, noError⟩ := hs
  have next : (s.stepNo + 1).toNat ≤ 192 := by bv_omega
  exact ⟨hfill, by simp [mixStep, run], fun _ => next, finishing, closed, empty, noError⟩

theorem engineInv_feedForward {s : State} (hs : EngineInv s) : EngineInv (feedForward s) := by
  obtain ⟨hfill, -, -, -, closed, empty, noError⟩ := hs
  by_cases hdata : s.dstate = .finData
  · rw [feedForward_of_finData hdata]
    exact ⟨hfill, by simp, by simp, by simp, by simp, fun _ => empty (.inl hdata), noError⟩
  by_cases hpad : s.dstate = .finPad
  · rw [feedForward_of_finPad hpad]
    exact ⟨hfill, by simp, by simp, by simp, by simp, fun _ => empty (.inr (.inl hpad)), noError⟩
  · rw [feedForward_of_other hdata hpad]
    exact ⟨hfill, by simp, by simp, fun h => (h.elim hdata hpad).elim, fun _ => rfl, empty, noError⟩

theorem engineInv_setData {s : State} (hs : EngineInv s) (v : Word) : EngineInv (s.setData v) := hs

theorem engineInv_errorRecorded {s : State} (hs : EngineInv s) (code : ErrCode) (v : Word) :
    EngineInv (errorRecorded code v s) := by
  cases herr : s.err with
  | true => rw [errorRecorded_of_err herr]; exact hs
  | false =>
    rw [errorRecorded_of_no_err herr]
    obtain ⟨hfill, hidle, hrun, finishing, closed, empty, -⟩ := hs
    exact ⟨hfill, hidle, hrun, finishing, closed, empty, by simp⟩

theorem engineInv_clearCmdError {s : State} (hs : EngineInv s) : EngineInv (clearCmdError s) := by
  obtain ⟨hfill, hidle, hrun, finishing, closed, empty, -⟩ := hs
  exact ⟨hfill, hidle, hrun, finishing, closed, empty, fun _ => ⟨rfl, rfl⟩⟩

theorem engineInv_initEffect {s : State} (hs : EngineInv s) : EngineInv (initEffect s) := by
  obtain ⟨-, hidle, hrun, -, -, -, noError⟩ := hs
  exact ⟨by simp [initEffect_eq], hidle, hrun, by simp [initEffect_eq], by simp [initEffect_eq],
    by simp [initEffect_eq], noError⟩

theorem engineInv_appendEffect {s : State} {n : Nat} (hs : EngineInv s) (absorbing : s.dstate = .absorb)
    (hn : n ≤ 192) : EngineInv (appendEffect n s) := by
  obtain ⟨hfill, hidle, hrun, -, -, -, noError⟩ := hs
  by_cases within : s.fill.toNat + n < 192
  · have bound : (appendEffect n s).fill.toNat ≤ 191 := by rw [appendEffect_within_fill within]; omega
    rw [appendEffect_within_frame within]
    exact ⟨bound, hidle, hrun, by simp [absorbing], by simp [absorbing], by simp [absorbing], noError⟩
  · have completes : 192 ≤ s.fill.toNat + n := not_lt.mp within
    have bound : (appendEffect n s).fill.toNat ≤ 191 := by
      rw [appendEffect_completing_fill hfill completes hn]; omega
    rw [appendEffect_completing_frame hfill completes hn]
    exact ⟨bound, by simp, by simp, by simp, by simp [absorbing], by simp [absorbing], noError⟩

theorem engineInv_finalizeEffect {s : State} (hs : EngineInv s) : EngineInv (finalizeEffect s) := by
  obtain ⟨-, -, -, -, -, -, noError⟩ := hs
  by_cases empty : s.fill = 0
  · rw [finalizeEffect_of_empty empty]
    exact ⟨by simp [empty], by simp, by simp, by simp, by simp, fun _ => empty, noError⟩
  · rw [finalizeEffect_of_partial empty]
    exact ⟨by simp, by simp, by simp, by simp, by simp, fun _ => rfl, noError⟩

/-! ## Every step (R27, R44) -/

/-- Settles O45: each effect a step can have keeps the invariants. -/
theorem stepKeepsInv : Obligations.StepKeepsInv := by
  intro s t hs hstep
  cases stepEffect_of_step hstep with
  | reset => exact EngineInv.of_sameEngine (resetEngine_sameEngine _) invHoldsAtReset
  | same ht => exact hs.of_sameEngine ht
  | mix hu _ run hn => exact engineInv_mix (hs.of_sameEngine hu) (hu.cphase.trans run) hn Config.engine
  | feedForward hu => exact engineInv_feedForward (hs.of_sameEngine hu)
  | data hu => exact engineInv_setData (hs.of_sameEngine hu) _
  | error code hu => exact engineInv_errorRecorded (hs.of_sameEngine hu) code _
  | init hu => exact engineInv_initEffect (hs.of_sameEngine hu)
  | append hu idle _ _ h4 initialised unfinished =>
    have absorbing := hs.absorb_of_idle idle initialised unfinished
    exact engineInv_appendEffect (hs.of_sameEngine hu) (hu.dstate.trans absorbing) (by omega)
  | finalize hu => exact engineInv_finalizeEffect (hs.of_sameEngine hu)
  | clrerr hu => exact engineInv_clearCmdError (hs.of_sameEngine hu)

/-! ## No fault (R151, R200) -/

/-- While STEP is at most 192 the engine's turn answers a next state. -/
theorem engineTurn_next (p : EngineParams) {s : State} (bound : s.cphase = .run → s.stepNo.toNat ≤ 192) :
    ∃ t, engineTurn p s = .next t := by
  cases hc : s.cphase with
  | idle => exact ⟨s, engineTurn_of_idle p hc⟩
  | run =>
    rcases (bound hc).lt_or_eq with hn | hn
    · exact ⟨_, engineTurn_of_mixing p hc hn⟩
    · exact ⟨_, engineTurn_of_done p hc (BitVec.eq_of_toNat_eq hn)⟩

theorem regWrite_next (r : Reg) (v : Word) (s : State) : ∃ t, regWrite r v s = .next t := by
  cases r with
  | cmd => exact executeCommand_next v s
  | data | status | errinfo | errcmd | bitcntLo | bitcntHi | digest i | reserved => exact ⟨_, rfl⟩

/-- A host line answers a next state or is refused. -/
theorem hostTurn_ne_fault (s : State) (f : Fault) : hostTurn s ≠ .fault f := by
  unfold hostTurn
  split
  case h_1 => simp
  case h_2 a v _ =>
    obtain ⟨t, ht⟩ := regWrite_next a.reg v (advanceHost s)
    rw [hostWrite, ht]
    split_ifs <;> simp
  case h_3 => rw [hostRead]; split_ifs <;> simp
  case h_4 => simp

/-- Settles O46: the engine's turn is the only one that can fault, and the bound on STEP keeps it from it. -/
theorem invStatesNeverFault : Obligations.InvStatesNeverFault := by
  intro s hs f
  unfold step
  cases nextTurn s with
  | host => exact hostTurn_ne_fault _ f
  | reset => simp
  | engine =>
    obtain ⟨-, -, bound, -⟩ := hs.of_sameEngine (takeTurn_sameEngine s)
    obtain ⟨t, ht⟩ := engineTurn_next Config.engine bound
    simp [ht]

end Sys2Proof.Machine
end

section
/-! PROOFS. The turns of a step and the lines of the host's program (spec/00_scope.md R15, spec/20_memory.md R51 to
R57, spec/30_encoding.md R88). -/

namespace Sys2Proof.Machine

/-! ## Which accesses reach the window (R51, R53) -/

theorem inWindow_iff {a : Access} : a.inWindow = true ↔ ∃ i < a.bytes, 0 ≤ a.off + i ∧ a.off + i < 64 := by
  rw [Access.inWindow, decide_eq_true_eq]
  constructor
  · rintro ⟨hbytes, hlow, hhigh⟩
    by_cases hoff : 0 ≤ a.off
    · exact ⟨0, hbytes, by omega⟩
    · exact ⟨(-a.off).toNat, by omega⟩
  · rintro ⟨i, hi, hin⟩
    omega

theorem admitted_eq_false_iff {a : Access} : a.admitted = false ↔ a.bytes ≠ 4 ∨ a.off % 4 ≠ 0 := by
  rw [Access.admitted, decide_eq_false_iff_not, not_and_or]

/-! ## The host's lines (R88) -/

theorem hostTurn_of_write {s : State} {a : Access} {v : Word} (h : nextHostOp s = some (.write a v)) :
    hostTurn s = hostWrite a v s := by
  rw [hostTurn, h]

theorem hostTurn_of_bnz {s : State} {name label : Nat} {mask : Word} (h : nextHostOp s = some (.bnz name mask label)) :
    hostTurn s = .next (hostBranch name mask label s) := by
  rw [hostTurn, h]

theorem hostWrite_of_admitted {a : Access} (hw : a.inWindow = true) (ha : a.admitted = true) (v : Word) (s : State) :
    hostWrite a v s = regWrite a.reg v (advanceHost s) := by
  rw [hostWrite, if_pos hw, if_pos ha]

theorem hostWrite_of_inadmissible {a : Access} (hw : a.inWindow = true) (ha : a.admitted = false) (v : Word)
    (s : State) : hostWrite a v s = .refused (.accessNotAdmitted a.off a.bytes) := by
  rw [hostWrite, if_pos hw, if_neg (by simp [ha])]

theorem hostWrite_of_outside {a : Access} (hw : a.inWindow = false) (v : Word) (s : State) :
    hostWrite a v s = .next (advanceHost s) := by
  rw [hostWrite, if_neg (by simp [hw])]

theorem hostRead_of_inadmissible {a : Access} (hw : a.inWindow = true) (ha : a.admitted = false) (name : Nat)
    (s : State) : hostRead a name s = .refused (.accessNotAdmitted a.off a.bytes) := by
  rw [hostRead, if_pos hw, if_neg (by simp [ha])]

theorem hostRead_of_outside {a : Access} (hw : a.inWindow = false) (name : Nat) (s : State) :
    hostRead a name s = .next { s with
      hostPc := s.hostPc + 1, hostNames := bindName name (Config.foreignRead s.freeIdx) s.hostNames,
      freeIdx := s.freeIdx + 1 } := by
  rw [hostRead, if_neg (by simp [hw])]
  rfl

/-- A host that is ready has a next state. -/
theorem hostTurn_next {s : State} (h : hostReady s = true) : ∃ t, hostTurn s = .next t := by
  unfold hostReady at h
  split at h
  case h_1 => cases h
  case h_2 a v op =>
    rw [hostTurn_of_write op]
    cases hw : a.inWindow with
    | false => exact ⟨_, hostWrite_of_outside hw v s⟩
    | true =>
      have ha : a.admitted = true := by simpa [Access.hasStep, hw] using h
      rw [hostWrite_of_admitted hw ha]
      exact regWrite_next a.reg v (advanceHost s)
  case h_3 a name op =>
    rw [hostTurn_of_read op]
    cases hw : a.inWindow with
    | false => exact ⟨_, hostRead_of_outside hw name s⟩
    | true =>
      have ha : a.admitted = true := by simpa [Access.hasStep, hw] using h
      exact ⟨_, hostRead_of_admitted hw ha name s⟩
  case h_4 name mask label op => exact ⟨_, hostTurn_of_bnz op⟩

/-! ## Whose turn it is (R15) -/

theorem engineReady_of_idle {s : State} (idle : s.cphase = .idle) : engineReady s = false := by
  simp [engineReady, State.busy, idle]

theorem engineReady_iff {s : State} : engineReady s = true ↔ s.cphase = .run ∧ s.stepNo.toNat ≤ 192 := by
  simp [engineReady, State.busy]

theorem hostMoves_of_scheduled {s : State} {l : List Turn} (h : s.schedule = .host :: l) :
    HostMoves s { s with schedule := l } :=
  .inl ⟨l, h, rfl⟩

theorem hostMoves_of_idle {s : State} (h : s.schedule = []) (idle : s.cphase = .idle) : HostMoves s s :=
  .inr (.inl ⟨h, engineReady_of_idle idle, rfl⟩)

/-- The host's write to CMD submits the word (R34, R100). -/
theorem step_of_write_cmd {s u : State} {v : Word} (hu : HostMoves s u)
    (op : nextHostOp s = some (.write { off := 0, bytes := 4 } v)) :
    step s = executeCommand v { u with hostPc := s.hostPc + 1 } := by
  obtain ⟨hstep, hnext⟩ := step_of_hostMoves hu
  obtain ⟨-, -, hpc, -⟩ := hostMoves_frame hu
  rw [hstep, hostTurn_of_write (hnext.trans op), hostWrite_of_admitted rfl rfl, advanceHost, hpc]
  rfl

theorem executeCommand_of_decode_ok {v : Word} {i : Instr} (h : decode v = .ok i) (s : State) :
    executeCommand v s = exec i s := by
  rw [executeCommand, h]

/-- Settles O5: in both cases the turn is the host's, in the two forms of `HostMoves` with and without a schedule. -/
theorem stepRunsDecodedCommand : Obligations.StepRunsDecodedCommand := by
  intro s v op
  refine ⟨fun l scheduled => ?scheduled, fun empty idle => ?unscheduled⟩
  case scheduled =>
    rw [step_of_write_cmd (hostMoves_of_scheduled scheduled) op]
    exact ⟨fun i hd => executeCommand_of_decode_ok hd _, fun e hd => executeCommand_of_decode_error hd _⟩
  case unscheduled =>
    rw [step_of_write_cmd (hostMoves_of_idle empty idle) op]
    exact ⟨fun i hd => executeCommand_of_decode_ok hd _, fun e hd => executeCommand_of_decode_error hd _⟩

/-- Settles O6: past the schedule's end, a host whose program is over leaves the turn to the engine. -/
theorem stepRunsEngineTurn : Obligations.StepRunsEngineTurn := by
  intro s
  refine ⟨fun l scheduled => step_of_engine scheduled, fun empty ended run bound => ?_⟩
  have ready : engineReady s = true := engineReady_iff.mpr ⟨run, bound⟩
  have stuck : hostReady s = false := by rw [hostReady, ended]
  simp [step, nextTurn, takeTurn, empty, ready, stuck]

theorem step_of_free_choice {s : State} (empty : s.schedule = []) (engine : engineReady s = true)
    (host : hostReady s = true) :
    step s = (if Config.engineFirst s.freeIdx then engineTurn Config.engine { s with freeIdx := s.freeIdx + 1 }
      else hostTurn { s with freeIdx := s.freeIdx + 1 }) := by
  cases choice : Config.engineFirst s.freeIdx <;>
    simp [step, nextTurn, takeTurn, empty, engine, host, choice, State.setFreeIdx]

/-- Settles O7: the free value chooses, and either agent, being ready, has a next state. -/
theorem unscheduledStepIsOneOfTheTwo : Obligations.UnscheduledStepIsOneOfTheTwo := by
  intro s empty engine host
  have choice := step_of_free_choice empty engine host
  refine ⟨choice, ?_⟩
  rw [choice]
  split
  case isTrue => exact engineTurn_next Config.engine fun _ => (engineReady_iff.mp engine).2
  case isFalse => exact hostTurn_next (s := { s with freeIdx := s.freeIdx + 1 }) host

/-! ## The registers of the window (R33 to R41, R55, R56) -/

theorem regAt_digest : ∀ i : Fin 6, regAt (0x20 + 4 * i.val) = .digest i := by
  decide

/-- Settles O35: which register stands at each offset is computed, and the code of ERRCODE is read off case by
case. -/
theorem windowReads : Obligations.WindowReads := by
  intro s
  refine ⟨rfl, rfl, rfl, ?errcode, rfl, rfl, rfl, rfl, fun i hi => ?digest, rfl, rfl⟩
  case errcode =>
    show errInfoWord s = _
    unfold errInfoWord
    cases s.errcode <;> rfl
  case digest => rw [regAt_digest ⟨i, hi⟩, regRead]

theorem regWrite_of_ne {r : Reg} (hcmd : r ≠ .cmd) (hdata : r ≠ .data) (v : Word) (s : State) :
    regWrite r v s = .next s := by
  cases r with
  | cmd => exact absurd rfl hcmd
  | data => exact absurd rfl hdata
  | status | errinfo | errcmd | bitcntLo | bitcntHi | digest i | reserved => rfl

/-- Settles O37: offset 4 is DATA, and the offsets above it are neither DATA nor CMD. -/
theorem writesBesidesCmd : Obligations.WritesBesidesCmd := by
  intro s u k v hu h1 hk op
  obtain ⟨hstep, hnext⟩ := step_of_hostMoves hu
  obtain ⟨hengine, -, hpc, -⟩ := hostMoves_frame hu
  rw [hstep, hostTurn_of_write (hnext.trans op), hostWrite_of_admitted (inWindow_aligned hk) (admitted_aligned k),
    reg_aligned, advanceHost, hpc]
  by_cases data : k = 1
  · subst data
    rfl
  · have hcmd : regAt (4 * k) ≠ .cmd := fun h => by have := eq_zero_of_regAt_cmd h; omega
    have hdata : regAt (4 * k) ≠ .data := fun h => by have := eq_four_of_regAt_data h; omega
    rw [regWrite_of_ne hcmd hdata, if_neg data, ← hengine.data]
    rfl

/-! ## Accesses that are not aligned words of the window (R51, R53) -/

/-- Settles O38: the access is one to the window, and the window does not admit it. -/
theorem inadmissibleAccessHasNoStep : Obligations.InadmissibleAccessHasNoStep := by
  intro s u a hu inside misshapen
  obtain ⟨hstep, hnext⟩ := step_of_hostMoves hu
  have hw := inWindow_iff.mpr inside
  have ha := admitted_eq_false_iff.mpr misshapen
  rw [hstep]
  exact ⟨fun v op => by rw [hostTurn_of_write (hnext.trans op), hostWrite_of_inadmissible hw ha],
    fun name op => by rw [hostTurn_of_read (hnext.trans op), hostRead_of_inadmissible hw ha]⟩

/-- Settles O39: the access is none to the window; a read binds the free value by the laws of `bindName`. -/
theorem accessOutsideWindowLeavesEngine : Obligations.AccessOutsideWindowLeavesEngine := by
  intro s u a hu outside
  obtain ⟨hstep, hnext⟩ := step_of_hostMoves hu
  obtain ⟨-, -, hpc, hnames⟩ := hostMoves_frame hu
  have hw : a.inWindow = false := by
    rw [← Bool.not_eq_true, inWindow_iff]
    rintro ⟨i, hi, hin⟩
    have := outside i hi
    omega
  rw [hstep, ← hpc, ← hnames]
  refine ⟨fun v op => ?write, fun name op => ?read⟩
  case write => rw [hostTurn_of_write (hnext.trans op), hostWrite_of_outside hw, advanceHost, State.setHostPc]
  case read =>
    rw [hostTurn_of_read (hnext.trans op), hostRead_of_outside hw]
    exact ⟨_, rfl, rfl, nameValue_bindName name _ _, fun other hne => nameValue_bindName_of_ne hne _ _⟩

/-! ## The host's branch (R88) -/

/-- Settles O40, by the two cases of the branch's condition. -/
theorem hostBranches : Obligations.HostBranches := by
  intro s u name label mask hu op
  obtain ⟨hstep, hnext⟩ := step_of_hostMoves hu
  obtain ⟨-, -, hpc, hnames⟩ := hostMoves_frame hu
  rw [hstep, hostTurn_of_bnz (hnext.trans op), hostBranch, advanceHost, ← hnames, ← hpc]
  by_cases zero : nameValue name u.hostNames &&& mask = 0
  · rw [if_pos zero, if_neg (not_not.mpr zero), State.setHostPc]
  · rw [if_neg zero, if_pos zero, State.setHostPc]

/-! ## The reset input (R230) -/

theorem step_of_reset {s : State} {l : List Turn} (h : s.schedule = .reset :: l) :
    step s = .next (resetEngine { s with schedule := l }) := by
  simp [step, nextTurn, takeTurn, h, State.setSchedule]

/-- Settles O42: `resetEngine` takes the engine's fields from the reset state and the others from the state before. -/
theorem resetTurnResetsEngine : Obligations.ResetTurnResetsEngine :=
  fun _ _ scheduled =>
    ⟨_, step_of_reset scheduled, resetEngine_sameEngine _, rfl, rfl, rfl, rfl, rfl⟩

end Sys2Proof.Machine
end

section
/-! PROOFS. The rules of the whole machine: which step changes what (spec/10_state.md R21, R22, R30, R31,
spec/40_commands.md R112, R113, spec/70_reset_and_hazards.md R231 to R236).  Each is a case analysis of
`StepEffect`. -/

namespace Sys2Proof.Machine

/-! ## What each effect leaves unchanged -/

theorem feedForward_frame (s : State) : feedForward s = { s with
    acc := (feedForward s).acc, x := (feedForward s).x, w := (feedForward s).w, cphase := (feedForward s).cphase,
    stepNo := (feedForward s).stepNo, dstate := (feedForward s).dstate } := by
  by_cases hdata : s.dstate = .finData
  · rw [feedForward_of_finData hdata]
  by_cases hpad : s.dstate = .finPad
  · rw [feedForward_of_finPad hpad]
  · rw [feedForward_of_other hdata hpad]

theorem finalizeEffect_frame (s : State) : finalizeEffect s = { s with
    fill := (finalizeEffect s).fill, x := (finalizeEffect s).x, w := (finalizeEffect s).w,
    cphase := (finalizeEffect s).cphase, stepNo := (finalizeEffect s).stepNo,
    dstate := (finalizeEffect s).dstate } := by
  by_cases empty : s.fill = 0
  · rw [finalizeEffect_of_empty empty]
  · rw [finalizeEffect_of_partial empty]

theorem appendEffect_frame (n : Nat) (s : State) : appendEffect n s = { s with
    bitcntLo := (appendEffect n s).bitcntLo, bitcntHi := (appendEffect n s).bitcntHi,
    fillbuf := (appendEffect n s).fillbuf, fill := (appendEffect n s).fill, x := (appendEffect n s).x,
    w := (appendEffect n s).w, cphase := (appendEffect n s).cphase, stepNo := (appendEffect n s).stepNo } := by
  rw [appendEffect, absorbList_frame]
  rfl

@[simp] theorem errorRecorded_acc (c : ErrCode) (v : Word) (s : State) : (errorRecorded c v s).acc = s.acc := by
  rw [errorRecorded_frame]
@[simp] theorem errorRecorded_bitCount (c : ErrCode) (v : Word) (s : State) :
    (errorRecorded c v s).bitCount = s.bitCount := by rw [errorRecorded_frame]; rfl
@[simp] theorem errorRecorded_fill (c : ErrCode) (v : Word) (s : State) : (errorRecorded c v s).fill = s.fill := by
  rw [errorRecorded_frame]
@[simp] theorem errorRecorded_cphase (c : ErrCode) (v : Word) (s : State) :
    (errorRecorded c v s).cphase = s.cphase := by rw [errorRecorded_frame]
@[simp] theorem errorRecorded_dstate (c : ErrCode) (v : Word) (s : State) :
    (errorRecorded c v s).dstate = s.dstate := by rw [errorRecorded_frame]
@[simp] theorem errorRecorded_data (c : ErrCode) (v : Word) (s : State) : (errorRecorded c v s).data = s.data := by
  rw [errorRecorded_frame]

@[simp] theorem initEffect_dstate (s : State) : (initEffect s).dstate = .absorb := rfl

@[simp] theorem appendEffect_acc (n : Nat) (s : State) : (appendEffect n s).acc = s.acc := by rw [appendEffect_frame]
@[simp] theorem appendEffect_dstate (n : Nat) (s : State) : (appendEffect n s).dstate = s.dstate := by
  rw [appendEffect_frame]
@[simp] theorem appendEffect_data (n : Nat) (s : State) : (appendEffect n s).data = s.data := by
  rw [appendEffect_frame]

@[simp] theorem finalizeEffect_acc (s : State) : (finalizeEffect s).acc = s.acc := by rw [finalizeEffect_frame]
@[simp] theorem finalizeEffect_bitCount (s : State) : (finalizeEffect s).bitCount = s.bitCount := by
  rw [finalizeEffect_frame]; rfl
@[simp] theorem finalizeEffect_data (s : State) : (finalizeEffect s).data = s.data := by rw [finalizeEffect_frame]

theorem finalizeEffect_dstate (s : State) :
    (finalizeEffect s).dstate = if s.fill = 0 then .finPad else .finData := by
  split
  case isTrue empty => rw [finalizeEffect_of_empty empty]
  case isFalse nonempty => rw [finalizeEffect_of_partial nonempty]

@[simp] theorem mixStep_acc (p : EngineParams) (n : Fin 192) (s : State) : (mixStep p n s).acc = s.acc := rfl
@[simp] theorem mixStep_dstate (p : EngineParams) (n : Fin 192) (s : State) : (mixStep p n s).dstate = s.dstate := rfl

theorem mixStep_sameErrors (p : EngineParams) (n : Fin 192) (s : State) : SameErrors s (mixStep p n s) :=
  ⟨rfl, rfl, rfl⟩

@[simp] theorem feedForward_bitCount (s : State) : (feedForward s).bitCount = s.bitCount := by
  rw [feedForward_frame]; rfl
@[simp] theorem feedForward_data (s : State) : (feedForward s).data = s.data := by rw [feedForward_frame]

theorem feedForward_sameErrors (s : State) : SameErrors s (feedForward s) := by
  rw [feedForward_frame]
  exact ⟨rfl, rfl, rfl⟩

theorem SameEngine.sameErrors {s t : State} (h : SameEngine s t) : SameErrors s t := ⟨h.err, h.errcode, h.errcmd⟩

/-! ## Who writes the registers (R21, R22, R30, R31) -/

/-- Settles O48: of the effects that are none of the three named, each leaves ACC. -/
theorem accWriters : Obligations.AccWriters := by
  intro s t hstep changed
  cases stepEffect_of_step hstep with
  | reset hu turn => exact .inr (.inr turn)
  | same ht => exact absurd ht.acc changed
  | mix hu => exact absurd hu.acc changed
  | feedForward hu moves run last => exact .inr (.inl ⟨moves, last⟩)
  | data hu => exact absurd hu.acc changed
  | error code hu => exact absurd ((errorRecorded_acc ..).trans hu.acc) changed
  | init hu idle command => exact .inl command
  | append hu => exact absurd ((appendEffect_acc ..).trans hu.acc) changed
  | finalize hu => exact absurd ((finalizeEffect_acc _).trans hu.acc) changed
  | clrerr hu => exact absurd hu.acc changed

/-- Settles O50: of the effects that are none of the three named, each leaves the counter. -/
theorem bitCounterWriters : Obligations.BitCounterWriters := by
  intro s t hstep changed
  cases stepEffect_of_step hstep with
  | reset hu turn => exact .inr (.inr turn)
  | same ht => exact absurd ht.bitCount changed
  | mix hu => exact absurd hu.bitCount changed
  | feedForward hu => exact absurd ((feedForward_bitCount _).trans hu.bitCount) changed
  | data hu => exact absurd hu.bitCount changed
  | error code hu => exact absurd ((errorRecorded_bitCount ..).trans hu.bitCount) changed
  | init hu idle command => exact .inl command
  | @append u n hu idle command h1 =>
    have nonzero : n ≠ 0 := by rintro rfl; exact absurd h1 (by decide)
    exact .inr (.inl ⟨n, nonzero, command⟩)
  | finalize hu => exact absurd ((finalizeEffect_bitCount _).trans hu.bitCount) changed
  | clrerr hu => exact absurd hu.bitCount changed

/-- Settles O51: of the effects that are neither of the two named, each leaves DATA. -/
theorem dataWriters : Obligations.DataWriters := by
  intro s t hstep changed
  cases stepEffect_of_step hstep with
  | reset hu turn => exact .inr turn
  | same ht => exact absurd ht.data changed
  | mix hu => exact absurd hu.data changed
  | feedForward hu => exact absurd ((feedForward_data _).trans hu.data) changed
  | data hu turn op => exact .inl ⟨turn, op⟩
  | error code hu => exact absurd ((errorRecorded_data ..).trans hu.data) changed
  | init hu => exact absurd hu.data changed
  | append hu => exact absurd ((appendEffect_data ..).trans hu.data) changed
  | finalize hu => exact absurd ((finalizeEffect_data _).trans hu.data) changed
  | clrerr hu => exact absurd hu.data changed

/-- Settles O52: the effects that change an error register are a command word's error and CLRERR, both of which come
by a write to CMD, and reset. -/
theorem errorRegisterWriters : Obligations.ErrorRegisterWriters := by
  intro s t hstep changed
  have kept : SameErrors s t → False := by
    rintro ⟨err, errcode, errcmd⟩
    rcases changed with h | h | h
    exacts [h err, h errcode, h errcmd]
  cases stepEffect_of_step hstep with
  | reset hu turn => exact .inr turn
  | same ht => exact (kept ht.sameErrors).elim
  | mix hu => exact (kept (hu.sameErrors.trans (mixStep_sameErrors ..))).elim
  | feedForward hu => exact (kept (hu.sameErrors.trans (feedForward_sameErrors _))).elim
  | data hu => exact (kept hu.sameErrors).elim
  | error code hu writes => exact .inl ⟨writes.1, _, writes.2⟩
  | init hu => exact (kept (hu.sameErrors.trans (initEffect_sameErrors _))).elim
  | append hu => exact (kept (hu.sameErrors.trans (appendEffect_sameErrors ..))).elim
  | finalize hu => exact (kept (hu.sameErrors.trans (finalizeEffect_sameErrors _))).elim
  | clrerr hu idle writes => exact .inl ⟨writes.1, _, writes.2⟩

/-! ## The digest state machine (R112, R113, R236) -/

theorem EngineInv.no_message_of_idle {s : State} (hs : EngineInv s) (idle : s.cphase = .idle)
    (closed : s.dstate ≠ .absorb) : s.dstate = .uninit ∨ s.dstate = .finalized := by
  by_contra h
  obtain ⟨hu, hf⟩ := not_or.mp h
  exact closed (hs.absorb_of_idle idle hu hf)

theorem EngineInv.idle_of_finalized {s : State} (hs : EngineInv s) (hd : s.dstate = .finalized) :
    s.cphase = .idle := by
  obtain ⟨-, -, -, -, closed, -⟩ := hs
  exact closed (.inr hd)

/-- Settles O47: of the ten effects, INIT, FINALIZE, the feed-forward and reset change STATE. -/
theorem digestStateTransitions : Obligations.DigestStateTransitions := by
  intro s t hs hstep changed
  cases stepEffect_of_step hstep with
  | reset hu turn => exact .inr (.inr (.inr (.inr ⟨turn, rfl⟩)))
  | same ht => exact absurd ht.dstate changed
  | mix hu => exact absurd hu.dstate changed
  | @feedForward u hu moves run last =>
    by_cases hdata : u.dstate = .finData
    · rw [feedForward_of_finData hdata]
      exact .inr (.inr (.inl ⟨moves, last, hu.dstate ▸ hdata, rfl⟩))
    by_cases hpad : u.dstate = .finPad
    · rw [feedForward_of_finPad hpad]
      exact .inr (.inr (.inr (.inl ⟨moves, last, hu.dstate ▸ hpad, rfl⟩)))
    · rw [feedForward_of_other hdata hpad] at changed
      exact absurd hu.dstate changed
  | data hu => exact absurd hu.dstate changed
  | error code hu => exact absurd ((errorRecorded_dstate ..).trans hu.dstate) changed
  | init hu idle command => exact .inl ⟨command, hs.no_message_of_idle idle changed.symm, rfl⟩
  | append hu => exact absurd ((appendEffect_dstate ..).trans hu.dstate) changed
  | finalize hu idle command initialised unfinished =>
    refine .inr (.inl ⟨command, hs.absorb_of_idle idle initialised unfinished, ?_⟩)
    rw [finalizeEffect_dstate, hu.fill]
  | clrerr hu => exact absurd hu.dstate changed

/-- Settles O54: in FINALIZED the unit is idle and no message is open, which leaves the effects that touch neither ACC
nor STATE. -/
theorem digestKeptOnceValid : Obligations.DigestKeptOnceValid := by
  intro s t hs hd hstep noInit noReset
  have idle := hs.idle_of_finalized hd
  cases stepEffect_of_step hstep with
  | reset hu turn => exact absurd turn noReset
  | same ht => exact ⟨ht.acc, ht.dstate.trans hd⟩
  | mix hu moves run => rw [idle] at run; cases run
  | feedForward hu moves run => rw [idle] at run; cases run
  | data hu => exact ⟨hu.acc, hu.dstate.trans hd⟩
  | error code hu =>
    exact ⟨(errorRecorded_acc ..).trans hu.acc, (errorRecorded_dstate ..).trans (hu.dstate.trans hd)⟩
  | init hu idle command => exact absurd command noInit
  | append hu idle command h1 h4 initialised unfinished => exact absurd hd unfinished
  | finalize hu idle command initialised unfinished => exact absurd hd unfinished
  | clrerr hu => exact ⟨hu.acc, hu.dstate.trans hd⟩

/-- In UNINIT no compression runs and ACC is zero (R236). -/
def ZeroInUninit (s : State) : Prop := s.dstate = .uninit → s.cphase = .idle ∧ ∀ i (h : i < 6), s.acc[i] = 0

theorem ZeroInUninit.of_eq {s t : State} (hs : ZeroInUninit s) (hdstate : t.dstate = s.dstate)
    (hcphase : t.cphase = s.cphase) (hacc : t.acc = s.acc) : ZeroInUninit t := by
  intro hd
  obtain ⟨idle, zero⟩ := hs (hdstate ▸ hd)
  exact ⟨hcphase.trans idle, fun i hi => by simp only [hacc, zero i hi]⟩

/-- A compression that runs is not one in UNINIT. -/
theorem ZeroInUninit.initialised {s : State} (hs : ZeroInUninit s) (run : s.cphase = .run) : s.dstate ≠ .uninit := by
  intro hd
  obtain ⟨idle, -⟩ := hs hd
  rw [run] at idle
  cases idle

theorem feedForward_dstate_ne_uninit {s : State} (h : s.dstate ≠ .uninit) : (feedForward s).dstate ≠ .uninit := by
  by_cases hdata : s.dstate = .finData
  · rw [feedForward_of_finData hdata]; simp
  by_cases hpad : s.dstate = .finPad
  · rw [feedForward_of_finPad hpad]; simp
  · rw [feedForward_of_other hdata hpad]; exact h

theorem zeroInUninit_of_step {s t : State} (hs : ZeroInUninit s) (hstep : step s = .next t) : ZeroInUninit t := by
  have same : ∀ {u}, SameEngine s u → ZeroInUninit u := fun hu => hs.of_eq hu.dstate hu.cphase hu.acc
  cases stepEffect_of_step hstep with
  | reset => exact fun _ => ⟨rfl, fun i hi => Vector.getElem_replicate hi⟩
  | same ht => exact same ht
  | mix hu moves run =>
    exact fun hd => absurd (hu.dstate.symm.trans hd) (hs.initialised run)
  | feedForward hu moves run =>
    have initialised := hu.dstate ▸ hs.initialised run
    exact fun hd => absurd hd (feedForward_dstate_ne_uninit initialised)
  | data hu => exact (same hu).of_eq rfl rfl rfl
  | error code hu =>
    exact (same hu).of_eq (errorRecorded_dstate ..) (errorRecorded_cphase ..) (errorRecorded_acc ..)
  | init => exact fun hd => by cases hd
  | append hu idle command h1 h4 initialised =>
    exact fun hd => absurd (hu.dstate.symm.trans ((appendEffect_dstate ..).symm.trans hd)) initialised
  | finalize =>
    intro hd
    rw [finalizeEffect_dstate] at hd
    split at hd <;> cases hd
  | clrerr hu => exact (same hu).of_eq rfl rfl rfl

/-- Settles O49, by the step lemma of `ZeroInUninit`. -/
theorem digestZeroInUninit : Obligations.DigestZeroInUninit :=
  ⟨fun _ hi => Vector.getElem_replicate hi, fun _ _ hs hstep => zeroInUninit_of_step hs hstep⟩

/-! ## BUSY (R234) -/

/-- Settles O53: of the effects possible while idle, FINALIZE and an APPEND that completes the block set BUSY. -/
theorem busyRisesOnlyByHostCommands : Obligations.BusyRisesOnlyByHostCommands := by
  intro s t hs hstep idle run
  have still : t.cphase = s.cphase → False := fun h => by
    rw [h, idle] at run
    cases run
  cases stepEffect_of_step hstep with
  | reset => cases run
  | same ht => exact (still ht.cphase).elim
  | mix hu moves busy => rw [idle] at busy; cases busy
  | feedForward hu moves busy => rw [idle] at busy; cases busy
  | data hu => exact (still hu.cphase).elim
  | error code hu => exact (still ((errorRecorded_cphase ..).trans hu.cphase)).elim
  | init hu => exact (still hu.cphase).elim
  | @append u n hu _ command h1 h4 initialised unfinished =>
    refine ⟨hs.absorb_of_idle idle initialised unfinished, .inl ⟨n, command, ?_⟩⟩
    by_contra within
    rw [appendEffect_within_frame (by rw [hu.fill]; omega)] at still
    exact still hu.cphase
  | finalize hu _ command initialised unfinished =>
    exact ⟨hs.absorb_of_idle idle initialised unfinished, .inr command⟩
  | clrerr hu => exact (still hu.cphase).elim

/-- The last transition of a block outside FIN_DATA and FIN_PAD, scheduled next. -/
theorem step_of_engine_last {s : State} {l : List Turn} (scheduled : s.schedule = .engine :: l)
    (run : s.cphase = .run) (last : s.stepNo = 192) (hdata : s.dstate ≠ .finData) (hpad : s.dstate ≠ .finPad) :
    step s = .next { s with acc := addSix s.acc s.w, cphase := .idle, stepNo := 0, schedule := l } := by
  have turn : engineTurn Config.engine (s.setSchedule l) = .next (feedForward (s.setSchedule l)) :=
    engineTurn_of_done _ run last
  have done : feedForward (s.setSchedule l) = _ := feedForward_of_other hdata hpad
  rw [step_of_engine scheduled, turn, done]
  rfl

/-- An APPEND accepted in a scheduled turn of the host. -/
theorem step_of_write_append {s : State} {l : List Turn} {n : BitVec 3} (scheduled : s.schedule = .host :: l)
    (op : nextHostOp s = some (.write { off := 0, bytes := 4 } (encode (.append n)))) (idle : s.cphase = .idle)
    (absorbing : s.dstate = .absorb) (h1 : 1 ≤ n.toNat) (h4 : n.toNat ≤ 4) :
    step s = .next (appendEffect n.toNat { s with schedule := l, hostPc := s.hostPc + 1 }) := by
  have wellFormed : (Instr.append n).wellFormed = true := decide_eq_true h4
  rw [step_of_write_cmd (hostMoves_of_scheduled scheduled) op, executeCommand_encode wellFormed]
  exact exec_append_of_absorb idle absorbing h1 h4

/-- Settles O55: with the host first, its APPEND meets BUSY = 1; with the engine first, the feed-forward frees the
unit and the APPEND is accepted. -/
theorem unpolledWriteHasBothOutcomes : Obligations.UnpolledWriteHasBothOutcomes := by
  intro s l run last absorbing noError room op
  have word : encode (.append 1) = 0x00000012 := by decide
  refine ⟨?hostFirst, ?engineFirst⟩
  case hostFirst =>
    have first := step_of_write_cmd (s := { s with schedule := .host :: l }) (hostMoves_of_scheduled rfl) op
    rw [← word, executeCommand_encode (by decide), exec_of_run (by decide) rfl (by exact run)] at first
    exact ⟨_, first, errorRecorded_errcode noError, errorRecorded_fill .., errorRecorded_bitCount ..⟩
  case engineFirst =>
    have first := step_of_engine_last (s := { s with schedule := .engine :: .host :: l }) rfl run last
      (by simp [absorbing]) (by simp [absorbing])
    have second := step_of_write_append (s := { s with
      acc := addSix s.acc s.w, cphase := .idle, stepNo := 0, schedule := .host :: l }) rfl (word ▸ op) rfl absorbing
      (by decide) (by decide)
    refine ⟨_, _, first, second, ?err, ?fill, appendEffect_bitCount (by decide) _⟩
    case err => exact (appendEffect_sameErrors ..).1.trans noError
    case fill =>
      have sum : (s.fill + 1).toNat = s.fill.toNat + 1 := by bv_omega
      refine BitVec.eq_of_toNat_eq ((appendEffect_within_fill ?within).trans sum.symm)
      exact Nat.add_lt_of_lt_sub room

/-! ## After reset (R231) -/

/-- A command is accepted when its word is written to CMD while the unit is idle. -/
theorem writesCmd_of_acceptedCommand {s : State} {i : Instr} (h : acceptedCommand s = some i) :
    ∃ v, WritesCmd s v := by
  unfold acceptedCommand at h
  split at h
  case h_2 => cases h
  case h_1 a v turn op =>
    split at h
    case isFalse => cases h
    case isTrue port =>
      simp only [Bool.and_eq_true, decide_eq_true_eq] at port
      obtain ⟨⟨⟨hw, ha⟩, hreg⟩, -⟩ := port
      have hacc := access_eq_of_admitted hw ha (eq_zero_of_regAt_cmd hreg)
      exact ⟨v, turn, by rw [op, hacc]; rfl⟩

theorem statusWord_reset : statusWord State.reset = 0 := by decide

theorem clearCmdError_of_no_err {s : State} (h : SameErrors State.reset s) : clearCmdError s = s := by
  obtain ⟨herr, hcode, hcmd⟩ := h
  cases s
  cases herr
  cases hcode
  cases hcmd
  rfl

/-- In UNINIT with the unit idle, every command but INIT changes at most the error registers. -/
theorem executeCommand_frame_of_uninit {s t : State} {v : Word} (hd : s.dstate = .uninit) (hv : v ≠ 0x00000001)
    (hexec : executeCommand v s = .next t) :
    t = { s with err := t.err, errcode := t.errcode, errcmd := t.errcmd } := by
  rcases executeCommand_cases hexec with ⟨i, hdec, hexec⟩ | ⟨e, -, rfl⟩
  case inr => exact errorRecorded_frame ..
  rcases exec_cases hexec with ⟨rfl, -⟩ | ⟨rfl, -⟩ | ⟨rfl, -⟩ | ⟨rfl, -⟩ | ⟨rfl, -⟩ | ⟨-, -, rfl⟩ |
    ⟨-, initialised, -⟩ | ⟨-, initialised, -⟩ | ⟨rfl, -, -⟩
  · rfl
  · exact errorRecorded_frame ..
  · exact errorRecorded_frame ..
  · exact errorRecorded_frame ..
  · exact errorRecorded_frame ..
  · obtain ⟨-, word⟩ := decode_eq_ok_iff.mp hdec
    exact absurd word.symm hv
  · exact absurd hd initialised
  · exact absurd hd initialised
  · rfl

/-- While the engine is as reset leaves it, only a write to CMD or DATA and reset can change it. -/
theorem sameEngine_of_step_after_reset {s t : State} (hs : SameEngine State.reset s) (hstep : step s = .next t)
    (noReset : nextTurn s ≠ .reset) (noCmd : ∀ v, ¬ WritesCmd s v)
    (noData : nextTurn s = .host → ∀ v, nextHostOp s ≠ some (.write { off := 4, bytes := 4 } v)) :
    SameEngine s t := by
  have noCommand : ∀ i, acceptedCommand s ≠ some i := fun i hi => by
    obtain ⟨v, hv⟩ := writesCmd_of_acceptedCommand hi
    exact noCmd v hv
  cases stepEffect_of_step hstep with
  | reset hu turn => exact absurd turn noReset
  | same ht => exact ht
  | mix hu moves run => rw [hs.cphase] at run; cases run
  | feedForward hu moves run => rw [hs.cphase] at run; cases run
  | data hu turn op => exact absurd op (noData turn _)
  | error code hu writes => exact absurd writes (noCmd _)
  | init hu idle command => exact absurd command (noCommand _)
  | append hu idle command => exact absurd command (noCommand _)
  | finalize hu idle command => exact absurd command (noCommand _)
  | clrerr hu idle writes => exact absurd writes (noCmd _)

/-- Settles O43, from the step lemma above, the reads of the reset state, and the commands in UNINIT. -/
theorem afterResetNothingHappens : Obligations.AfterResetNothingHappens := by
  intro s hs
  have idle : s.cphase = .idle := hs.cphase
  refine ⟨fun t hstep turn => ?step, ?status, fun i => ?digest, exec_nop_of_idle idle, exec_append_zero_of_idle idle,
    ?clrerr, fun v t hv hexec => executeCommand_frame_of_uninit hs.dstate hv hexec⟩
  case step =>
    rcases turn with engine | ⟨host, others⟩
    · exact sameEngine_of_step_after_reset hs hstep (by rw [engine]; decide)
        (fun v writes => by have := writes.1; rw [engine] at this; cases this)
        (fun host => by rw [engine] at host; cases host)
    · exact sameEngine_of_step_after_reset hs hstep (by rw [host]; decide)
        (fun v writes => (others v).1 writes.2) (fun _ v => (others v).2)
  case status => rw [regRead_of_sameEngine hs, regRead_status, statusWord_reset]
  case digest => rw [regRead_of_sameEngine hs, regRead]; exact Vector.getElem_replicate i.isLt
  case clrerr => rw [exec_clrerr_of_idle idle, clearCmdError_of_no_err hs.sameErrors]

end Sys2Proof.Machine
end

section
/-! PROOFS. The compression unit: its step rule, which block words it reads, and how many transitions it takes
(spec/41_compression.md R142 to R153, spec/70_reset_and_hazards.md R240). -/

namespace Sys2Proof.Machine

/-! ## The target register (R144, R145) -/

theorem target_descending_val (n : Nat) : (target .descending n).val = (6 - n % 6) % 6 := rfl

theorem target_ascending_val (n : Nat) : (target .ascending n).val = n % 6 := rfl

/-- Settles O24, by arithmetic modulo 6 on the two formulas of the target. -/
theorem targetsRotate : Obligations.TargetsRotate := by
  intro o n k
  have one_val : (1 : Fin 6).val = 1 := rfl
  refine ⟨?start, ?back, ?on, fun h1 h5 => ?source⟩
  case start => cases o <;> rfl
  case back =>
    apply Fin.ext
    rw [Fin.val_add, one_val, target_descending_val, target_descending_val]
    omega
  case on =>
    apply Fin.ext
    rw [Fin.val_add, one_val, target_ascending_val, target_ascending_val]
    omega
  case source => omega

/-! ## The step rule (R12, R146) -/

theorem rol32_eq_rotateLeft (x : Word) (n : Nat) : rol32 x n = x.rotateLeft n := by
  rw [rol32, BitVec.rotateLeft_def]
  split
  case isTrue whole => simp [whole, BitVec.ushiftRight_eq_zero]
  case isFalse => rfl

theorem ror32_eq_rotateRight (x : Word) (n : Nat) : ror32 x n = x.rotateRight n := by
  rw [ror32, BitVec.rotateRight_def]
  split
  case isTrue whole => simp [whole]
  case isFalse => rfl

theorem combined_eq (c : Combine) (m bw : Word) : combined c m bw = if c = .add then m + bw else m ^^^ bw := by
  cases c <;> rfl

theorem withFeedback_eq (f : Feedback) (u old : Word) :
    withFeedback f u old = if f = .addOld then u + old else u := by
  cases f <;> rfl

theorem target_val (o : TargetOrder) (n : Nat) :
    (target o n).val = if o = .descending then (6 - n % 6) % 6 else n % 6 := by
  cases o <;> rfl

theorem mixBody_getElem (p : EngineParams) (n : Fin 192) (w : Six) (x : BlockWords) {i : Nat} (hi : i < 6) :
    (mixBody p n w x)[i] = if i = (target p.order n.val).val then mixValue p n w x else w[i] := by
  rw [mixBody, Vector.getElem_set]
  exact if_congr eq_comm rfl rfl

/-- Settles O23: the transition writes `mixBody`, whose parts are the pseudocode's. -/
theorem mixStepFollowsRule : Obligations.MixStepFollowsRule := by
  intro p s n run hstep
  have turn : engineTurn p s = .next { s with w := mixBody p n s.w s.x, stepNo := s.stepNo + 1 } := by
    have hn : s.stepNo.toNat < 192 := hstep ▸ n.isLt
    have same : (⟨s.stepNo.toNat, hn⟩ : Fin 192) = n := Fin.ext hstep
    rw [engineTurn_of_mixing p run hn, same]
  refine ⟨_, turn, rfl, ?next, ?rule⟩
  case next =>
    have := n.isLt
    show (s.stepNo + 1).toNat = _
    bv_omega
  case rule =>
    intro tg r j src wd m u0 u v i hi
    have htg : (target p.order n.val).val = tg := target_val p.order n.val
    have htg6 : (tg + 0) % 6 = tg := by rw [← htg]; omega
    have hsrc : ∀ k, source s.w (target p.order n.val) k = src k := fun k => by
      simp only [source, htg, src]
      rfl
    have hold : s.w[(target p.order n.val).val] = src 0 := by simp only [src, htg6, htg]
    have hvalue : mixValue p n s.w s.x = (v + wd).rotateRight (p.tables.r2 n).val := by
      simp only [mixValue, mixerOut, hsrc, hold, combined_eq, withFeedback_eq, rol32_eq_rotateLeft,
        ror32_eq_rotateRight]
      rfl
    show (mixBody p n s.w s.x)[i] = _
    rw [mixBody_getElem p n s.w s.x hi, hvalue, htg]

/-! ## The block words a compression reads (R148) -/

/-- The one step of round `r` that reads word `i`. -/
def readingStep (p : EngineParams) (i : Fin 48) (r : Fin 4) : Fin 192 :=
  ⟨48 * r.val + ((p.tables.perm r).symm i).val, by omega⟩

theorem readingStep_round (p : EngineParams) (i : Fin 48) (r : Fin 4) : roundOf (readingStep p i r) = r := by
  apply Fin.ext
  simp only [roundOf, readingStep]
  omega

theorem readingStep_index (p : EngineParams) (i : Fin 48) (r : Fin 4) :
    indexOf (readingStep p i r) = (p.tables.perm r).symm i := by
  apply Fin.ext
  simp only [indexOf, readingStep]
  omega

theorem readingStep_reads (p : EngineParams) (i : Fin 48) (r : Fin 4) :
    p.tables.perm (roundOf (readingStep p i r)) (indexOf (readingStep p i r)) = i := by
  rw [readingStep_round, readingStep_index, Equiv.apply_symm_apply]

/-- PERM being a bijection in each round, a step that reads word `i` is its round's reading step. -/
theorem eq_readingStep {p : EngineParams} {i : Fin 48} {n : Fin 192}
    (h : p.tables.perm (roundOf n) (indexOf n) = i) : n = readingStep p i (roundOf n) := by
  apply Fin.ext
  simp only [readingStep, ← h, Equiv.symm_apply_apply, roundOf, indexOf]
  omega

/-- Settles O25: the steps that read a word are its four reading steps, one in each round. -/
theorem eachBlockWordReadFourTimes : Obligations.EachBlockWordReadFourTimes := by
  intro p i
  constructor
  · intro r
    rw [Finset.card_eq_one]
    refine ⟨readingStep p i r, Finset.ext fun n => ?_⟩
    rw [Finset.mem_filter_univ, Finset.mem_singleton]
    constructor
    · rintro ⟨round, reads⟩
      have hr : roundOf n = r := Fin.ext round
      rw [eq_readingStep reads, hr]
    · rintro rfl
      exact ⟨congrArg Fin.val (readingStep_round p i r), readingStep_reads p i r⟩
  · have injective : Function.Injective (readingStep p i) :=
      Function.LeftInverse.injective (g := roundOf) (readingStep_round p i)
    have steps : (Finset.univ.filter fun n : Fin 192 => p.tables.perm (roundOf n) (indexOf n) = i) =
        Finset.univ.image (readingStep p i) := by
      ext n
      rw [Finset.mem_filter_univ, Finset.mem_image]
      constructor
      · exact fun reads => ⟨roundOf n, Finset.mem_univ _, (eq_readingStep reads).symm⟩
      · rintro ⟨r, -, rfl⟩
        exact readingStep_reads p i r
    rw [steps, Finset.card_image_of_injective _ injective, Finset.card_univ, Fintype.card_fin]

/-! ## The end of a compression (R107, R150) -/

/-- Settles O26, from the three cases of the feed-forward. -/
theorem feedForwardEndsCompression : Obligations.FeedForwardEndsCompression := by
  intro p s run last
  refine ⟨feedForward s, engineTurn_of_done p run last, fun i hi => ?sum, fun hdata => ?data, fun hpad => ?pad,
    fun hdata hpad => ?other⟩
  case sum => simp only [feedForward_acc, addSix_getElem]
  case data => simp only [feedForward_of_finData hdata, run]
  case pad => rw [feedForward_of_finPad hpad]
  case other => rw [feedForward_of_other hdata hpad]

@[simp] theorem feedForward_stepNo (s : State) : (feedForward s).stepNo = 0 := by
  by_cases hdata : s.dstate = .finData
  · rw [feedForward_of_finData hdata]
  by_cases hpad : s.dstate = .finPad
  · rw [feedForward_of_finPad hpad]
  · rw [feedForward_of_other hdata hpad]

@[simp] theorem mixStep_stepNo (p : EngineParams) (n : Fin 192) (s : State) :
    (mixStep p n s).stepNo = s.stepNo + 1 := rfl

@[simp] theorem mixStep_cphase (p : EngineParams) (n : Fin 192) (s : State) :
    (mixStep p n s).cphase = s.cphase := rfl

/-- What a transition of a running engine does. -/
theorem engineTurn_cases {p : EngineParams} {s t : State} (run : s.cphase = .run) (h : engineTurn p s = .next t) :
    (∃ hn : s.stepNo.toNat < 192, t = mixStep p ⟨s.stepNo.toNat, hn⟩ s) ∨ (s.stepNo = 192 ∧ t = feedForward s) := by
  unfold engineTurn at h
  rw [run] at h
  dsimp only at h
  split_ifs at h with hn last
  · cases h
    exact .inl ⟨hn, rfl⟩
  · cases h
    exact .inr ⟨last, rfl⟩

/-- Settles O27: either transition changes STEP. -/
theorem engineNeverStalls : Obligations.EngineNeverStalls := by
  intro p s
  refine ⟨engineTurn_of_idle p, fun run bound => ?_⟩
  obtain ⟨t, turn⟩ := engineTurn_next p fun _ => bound
  refine ⟨t, turn, fun stalled => ?_⟩
  have step_kept : t.stepNo = s.stepNo := by rw [stalled]
  rcases engineTurn_cases run turn with ⟨hn, rfl⟩ | ⟨last, rfl⟩
  · rw [mixStep_stepNo] at step_kept
    bv_omega
  · rw [feedForward_stepNo, last] at step_kept
    exact absurd step_kept (by decide)

/-! ## During a compression (R152) -/

/-- Settles O28: the state after `k` mixing transitions is known, and the feed-forward adds W to ACC. -/
theorem accKeptUntilFeedForward : Obligations.AccKeptUntilFeedForward := by
  intro p s blk
  refine ⟨fun k hk => ?mixing, ?last⟩
  case mixing =>
    refine ⟨_, engineRun_startCompress p blk s hk, rfl, ?_, rfl, fun i => rfl⟩
    exact Nat.mod_eq_of_lt (by omega)
  case last =>
    exact ⟨_, _, engineRun_startCompress p blk s le_rfl, engineTurn_of_done p rfl rfl, feedForward_acc _⟩

/-! ## How many transitions the engine takes (R240) -/

/-- R27's bound on STEP. -/
def StepBounded (s : State) : Prop := s.cphase = .run → s.stepNo.toNat ≤ 192

theorem engineWork_of_idle {s : State} (idle : s.cphase = .idle) : engineWork s = 0 := by
  rw [engineWork, idle]

theorem engineWork_of_run {s : State} (run : s.cphase = .run) :
    engineWork s = 193 - s.stepNo.toNat + (if s.dstate = .finData then 193 else 0) := by
  rw [engineWork, run]

theorem engineWork_pos {s : State} (run : s.cphase = .run) (bound : StepBounded s) : 0 < engineWork s := by
  have := bound run
  rw [engineWork_of_run run]
  omega

theorem engineWork_le (s : State) : engineWork s ≤ 386 := by
  cases hc : s.cphase with
  | idle => rw [engineWork_of_idle hc]; omega
  | run => rw [engineWork_of_run hc]; split <;> omega

theorem idle_of_engineWork_eq_zero {s : State} (bound : StepBounded s) (h : engineWork s = 0) :
    s.cphase = .idle := by
  cases hc : s.cphase with
  | idle => rfl
  | run => exact absurd h (engineWork_pos hc bound).ne'

theorem engineWork_mixStep (p : EngineParams) {s : State} (run : s.cphase = .run) (hn : s.stepNo.toNat < 192) :
    engineWork (mixStep p ⟨s.stepNo.toNat, hn⟩ s) + 1 = engineWork s := by
  have next : (s.stepNo + 1).toNat = s.stepNo.toNat + 1 := by bv_omega
  rw [engineWork_of_run run, engineWork_of_run (s := mixStep p _ s) run, mixStep_stepNo, mixStep_dstate, next]
  omega

theorem engineWork_feedForward {s : State} (run : s.cphase = .run) (last : s.stepNo = 192) :
    engineWork (feedForward s) + 1 = engineWork s := by
  rw [engineWork_of_run run, last]
  by_cases hdata : s.dstate = .finData
  · rw [feedForward_of_finData hdata, if_pos hdata]
    rfl
  rw [if_neg hdata]
  by_cases hpad : s.dstate = .finPad
  · rw [feedForward_of_finPad hpad]
    rfl
  · rw [feedForward_of_other hdata hpad]
    rfl

/-- Each transition of a running engine takes one from the work. -/
theorem engineWork_of_engineTurn {p : EngineParams} {s t : State} (run : s.cphase = .run)
    (h : engineTurn p s = .next t) : engineWork t + 1 = engineWork s := by
  rcases engineTurn_cases run h with ⟨hn, rfl⟩ | ⟨last, rfl⟩
  · exact engineWork_mixStep p run hn
  · exact engineWork_feedForward run last

/-- The induction over the engine's transitions: what bounds STEP and is kept by every transition of a running engine
holds as long as there is work, and the work counts the transitions. -/
theorem engineRun_induction {p : EngineParams} {P : State → Prop} (bound : ∀ s, P s → StepBounded s)
    (keeps : ∀ s t, P s → s.cphase = .run → engineTurn p s = .next t → P t) {s : State} (hs : P s) {k : Nat}
    (hk : k ≤ engineWork s) : ∃ t, engineRun p k s = .next t ∧ P t ∧ engineWork t + k = engineWork s := by
  induction k with
  | zero => exact ⟨s, rfl, hs, rfl⟩
  | succ k ih =>
    obtain ⟨t, hrun, ht, work⟩ := ih (by omega)
    have run : t.cphase = .run := by
      cases hc : t.cphase with
      | run => rfl
      | idle => have := engineWork_of_idle hc; omega
    obtain ⟨u, turn⟩ := engineTurn_next p (bound t ht)
    have less := engineWork_of_engineTurn run turn
    exact ⟨u, by rw [engineRun_succ, hrun, andThen_next, turn], keeps t u ht run turn, by omega⟩

/-- A digest is being finished or is finished (R106, R107). -/
def Finishing (s : State) : Prop :=
  (s.cphase = .run ∧ s.stepNo.toNat ≤ 192 ∧ (s.dstate = .finData ∨ s.dstate = .finPad)) ∨
  (s.cphase = .idle ∧ s.dstate = .finalized)

theorem Finishing.stepBounded {s : State} (hs : Finishing s) : StepBounded s := by
  rcases hs with ⟨-, bound, -⟩ | ⟨idle, -⟩
  · exact fun _ => bound
  · exact fun run => by rw [idle] at run; cases run

theorem Finishing.finalized_of_idle {s : State} (hs : Finishing s) (idle : s.cphase = .idle) :
    s.dstate = .finalized := by
  rcases hs with ⟨run, -, -⟩ | ⟨-, hd⟩
  · rw [idle] at run; cases run
  · exact hd

theorem Finishing.of_engineTurn {p : EngineParams} {s t : State} (hs : Finishing s) (run : s.cphase = .run)
    (h : engineTurn p s = .next t) : Finishing t := by
  rcases hs with ⟨-, -, hd⟩ | ⟨idle, -⟩
  case inr => rw [idle] at run; cases run
  rcases engineTurn_cases run h with ⟨hn, rfl⟩ | ⟨-, rfl⟩
  · have next : (s.stepNo + 1).toNat ≤ 192 := by bv_omega
    exact .inl ⟨run, next, hd⟩
  · rcases hd with hdata | hpad
    · rw [feedForward_of_finData hdata]
      exact .inl ⟨rfl, Nat.zero_le _, .inr rfl⟩
    · rw [feedForward_of_finPad hpad]
      exact .inr ⟨rfl, rfl⟩

theorem finishing_finalizeEffect (s : State) : Finishing (finalizeEffect s) := by
  by_cases empty : s.fill = 0
  · rw [finalizeEffect_of_empty empty]
    exact .inl ⟨rfl, Nat.zero_le _, .inr rfl⟩
  · rw [finalizeEffect_of_partial empty]
    exact .inl ⟨rfl, Nat.zero_le _, .inl rfl⟩

theorem engineWork_finalizeEffect (s : State) :
    engineWork (finalizeEffect s) = if s.fill = 0 then 193 else 386 := by
  split
  case isTrue empty => rw [finalizeEffect_of_empty empty]; rfl
  case isFalse nonempty => rw [finalizeEffect_of_partial nonempty]; rfl

/-- Settles O30: the bounds are the work after FINALIZE, at whose end the engine is idle and before which it runs. -/
theorem finalizationLength : Obligations.FinalizationLength := by
  intro p s t idle absorbing hexec
  rw [exec_finalize_of_absorb idle absorbing] at hexec
  cases hexec
  rw [← engineWork_finalizeEffect]
  have run_for : ∀ k, k ≤ engineWork (finalizeEffect s) → ∃ u, engineRun p k (finalizeEffect s) = .next u ∧
      Finishing u ∧ engineWork u + k = engineWork (finalizeEffect s) := fun k hk =>
    engineRun_induction (fun _ h => h.stepBounded) (fun _ _ h run turn => h.of_engineTurn run turn)
      (finishing_finalizeEffect s) hk
  refine ⟨?finish, fun k hk => ?running⟩
  case finish =>
    obtain ⟨u, hrun, finishing, work⟩ := run_for _ le_rfl
    have done : u.cphase = .idle := idle_of_engineWork_eq_zero finishing.stepBounded (by omega)
    exact ⟨u, hrun, finishing.finalized_of_idle done, done⟩
  case running =>
    obtain ⟨u, hrun, finishing, work⟩ := run_for k hk.le
    refine ⟨u, hrun, ?_⟩
    cases hc : u.cphase with
    | run => rfl
    | idle => have := engineWork_of_idle hc; omega

end Sys2Proof.Machine
end

section
/-! PROOFS. Along every interleaving the engine's state is the one that the octets absorbed since INIT call for
(spec/10_state.md R23, R24, spec/40_commands.md R102 to R114). -/

namespace Sys2Proof.Machine

/-! ## Messages that grow (R104, R114) -/

theorem blockAt_getElem (msg : List Octet) (b : Nat) {i : Nat} (hi : i < 192) :
    (blockAt msg b)[i] = msg.getD (192 * b + i) 0 :=
  Vector.getElem_ofFn hi

/-- A block that is full stays as it is. -/
theorem blockAt_append_of_full {msg : List Octet} {b : Nat} (h : 192 * (b + 1) ≤ msg.length) (os : List Octet) :
    blockAt (msg ++ os) b = blockAt msg b := by
  refine Vector.ext fun i hi => ?_
  rw [blockAt_getElem _ _ hi, blockAt_getElem _ _ hi, List.getD_append _ _ _ _ (by omega)]

/-- In the block that is open the new octets stand after those of the message. -/
theorem blockAt_append_open (msg os : List Octet) {i : Nat} (hi : i < 192) :
    (blockAt (msg ++ os) (msg.length / 192))[i] =
      if msg.length % 192 ≤ i then os.getD (i - msg.length % 192) 0
      else (blockAt msg (msg.length / 192))[i] := by
  have position := Nat.div_add_mod msg.length 192
  rw [blockAt_getElem _ _ hi, blockAt_getElem _ _ hi]
  split
  case isTrue new =>
    rw [List.getD_append_right _ _ _ _ (by omega)]
    congr 1
    omega
  case isFalse old => rw [List.getD_append _ _ _ _ (by omega)]

/-- The block after it begins with the octets that the open block has no room for. -/
theorem blockAt_append_next (msg os : List Octet) {i : Nat} (hi : i < 192) :
    (blockAt (msg ++ os) (msg.length / 192 + 1))[i] = os.getD (192 - msg.length % 192 + i) 0 := by
  have position := Nat.div_add_mod msg.length 192
  rw [blockAt_getElem _ _ hi, List.getD_append_right _ _ _ _ (by omega)]
  congr 1
  omega

theorem chain_succ (p : EngineParams) (msg : List Octet) (b : Nat) :
    chain p msg (b + 1) = compress p (chain p msg b) (adapter (blockAt msg b)) := rfl

theorem chain_append (p : EngineParams) {msg : List Octet} {b : Nat} (h : 192 * b ≤ msg.length) (os : List Octet) :
    chain p (msg ++ os) b = chain p msg b := by
  induction b with
  | zero => rfl
  | succ b ih => rw [chain_succ, chain_succ, ih (by omega), blockAt_append_of_full h]

theorem bitCountOf_append (msg os : List Octet) :
    bitCountOf (msg ++ os) = bitCountOf msg + BitVec.ofNat 64 (8 * os.length) := by
  rw [bitCountOf, List.length_append, Nat.mul_add, BitVec.ofNat_add, bitCountOf]

theorem bitCount_high (s : State) : s.bitCount.extractLsb' 32 32 = s.bitcntHi :=
  BitVec.extractLsb'_append_eq_left

theorem bitCount_low (s : State) : s.bitCount.extractLsb' 0 32 = s.bitcntLo :=
  BitVec.extractLsb'_append_eq_right

theorem dataChain_of_whole {p : EngineParams} {msg : List Octet} (h : msg.length % 192 = 0) :
    dataChain p msg = chain p msg (msg.length / 192) := by
  rw [dataChain, if_pos h]

theorem dataChain_of_partial {p : EngineParams} {msg : List Octet} (h : msg.length % 192 ≠ 0) :
    dataChain p msg = compress p (chain p msg (msg.length / 192))
      (adapter (zeroFill (blockAt msg (msg.length / 192)) (msg.length % 192))) := by
  rw [dataChain, if_neg h]

/-- Zero filling looks at the octets below the bound only. -/
theorem zeroFill_congr {b d : Block} {n : Nat} (h : ∀ i (hi : i < 192), i < n → b[i] = d[i]) :
    zeroFill b n = zeroFill d n := by
  refine Vector.ext fun i hi => ?_
  simp only [zeroFill, Vector.getElem_ofFn]
  split
  case isTrue below => exact h i hi below
  case isFalse => rfl

/-! ## What `Tracks` says in each STATE -/

/-- FILL and the fill buffer hold the octets of the message's last block that is not full (R24). -/
def Buffered (msg : List Octet) (s : State) : Prop :=
  s.fill.toNat = msg.length % 192 ∧
  ∀ i (h : i < 192), i < msg.length % 192 → s.fillbuf[i] = (blockAt msg (msg.length / 192))[i]

/-- The words of the finalization block of a message (R176, R179). -/
def paddingWords (msg : List Octet) : BlockWords :=
  adapter (padBlock ((bitCountOf msg).extractLsb' 32 32) ((bitCountOf msg).extractLsb' 0 32))

/-- The words of the partial block of a message, zero-filled (R175). -/
def partialWords (msg : List Octet) : BlockWords :=
  adapter (zeroFill (blockAt msg (msg.length / 192)) (msg.length % 192))

section

variable {msg : List Octet} {s : State}

theorem tracks_of_uninit (hs : EngineInv s) (hd : s.dstate = .uninit) : Tracks msg s := by
  unfold Tracks
  rw [hd]
  exact ⟨hs, trivial⟩

theorem tracks_absorbing_idle_iff (hd : s.dstate = .absorb) (idle : s.cphase = .idle) : Tracks msg s ↔
    EngineInv s ∧ s.bitCount = bitCountOf msg ∧ Buffered msg s ∧
      s.acc = chain Config.engine msg (msg.length / 192) := by
  unfold Tracks Buffered
  rw [hd, idle]
  simp only [and_assoc]

theorem tracks_absorbing_run_iff (hd : s.dstate = .absorb) (run : s.cphase = .run) : Tracks msg s ↔
    EngineInv s ∧ s.bitCount = bitCountOf msg ∧ Buffered msg s ∧ 192 ≤ msg.length ∧
      s.acc = chain Config.engine msg (msg.length / 192 - 1) ∧
      Compressing s (adapter (blockAt msg (msg.length / 192 - 1))) := by
  unfold Tracks Buffered
  rw [hd, run]
  simp only [and_assoc]

theorem tracks_finData_iff (hd : s.dstate = .finData) : Tracks msg s ↔
    EngineInv s ∧ s.bitCount = bitCountOf msg ∧ msg.length % 192 ≠ 0 ∧
      s.acc = chain Config.engine msg (msg.length / 192) ∧ Compressing s (partialWords msg) := by
  unfold Tracks
  rw [hd]
  rfl

theorem tracks_finPad_iff (hd : s.dstate = .finPad) : Tracks msg s ↔
    EngineInv s ∧ s.bitCount = bitCountOf msg ∧ s.acc = dataChain Config.engine msg ∧
      Compressing s (paddingWords msg) := by
  unfold Tracks
  rw [hd]
  rfl

theorem tracks_finalized_iff (hd : s.dstate = .finalized) : Tracks msg s ↔
    EngineInv s ∧ s.bitCount = bitCountOf msg ∧ s.acc = hash Config.engine msg := by
  unfold Tracks
  rw [hd]

theorem Tracks.engineInv (h : Tracks msg s) : EngineInv s := h.1

end

/-- The two states agree in all that `Tracks` speaks of besides the invariants. -/
def SameProgress (s t : State) : Prop :=
  t.acc = s.acc ∧ t.bitCount = s.bitCount ∧ t.fillbuf = s.fillbuf ∧ t.fill = s.fill ∧ t.x = s.x ∧ t.w = s.w ∧
  t.cphase = s.cphase ∧ t.stepNo = s.stepNo ∧ t.dstate = s.dstate

theorem SameEngine.sameProgress {s t : State} (h : SameEngine s t) : SameProgress s t :=
  ⟨h.acc, h.bitCount, h.fillbuf, h.fill, h.x, h.w, h.cphase, h.stepNo, h.dstate⟩

theorem errorRecorded_sameProgress (c : ErrCode) (v : Word) (s : State) : SameProgress s (errorRecorded c v s) := by
  rw [errorRecorded_frame]
  exact ⟨rfl, rfl, rfl, rfl, rfl, rfl, rfl, rfl, rfl⟩

theorem clearCmdError_sameProgress (s : State) : SameProgress s (clearCmdError s) :=
  ⟨rfl, rfl, rfl, rfl, rfl, rfl, rfl, rfl, rfl⟩

theorem setData_sameProgress (s : State) (v : Word) : SameProgress s (s.setData v) :=
  ⟨rfl, rfl, rfl, rfl, rfl, rfl, rfl, rfl, rfl⟩

theorem Tracks.of_sameProgress {msg : List Octet} {s t : State} (hs : Tracks msg s) (h : SameProgress s t)
    (ht : EngineInv t) : Tracks msg t := by
  obtain ⟨acc, bitCount, fillbuf, fill, x, w, cphase, stepNo, dstate⟩ := h
  unfold Tracks Compressing at *
  rw [acc, bitCount, fillbuf, fill, x, w, cphase, stepNo, dstate]
  exact ⟨ht, hs.2⟩

theorem Tracks.of_sameEngine {msg : List Octet} {s t : State} (hs : Tracks msg s) (h : SameEngine s t) :
    Tracks msg t :=
  hs.of_sameProgress h.sameProgress (hs.engineInv.of_sameEngine h)

/-! ## INIT (R102) -/

theorem tracks_initEffect {s : State} (hs : EngineInv s) (idle : s.cphase = .idle) : Tracks [] (initEffect s) := by
  rw [tracks_absorbing_idle_iff (initEffect_dstate s) idle]
  have count : (initEffect s).bitCount = bitCountOf [] := by
    show (0 : Word) ++ (0 : Word) = bitCountOf []
    decide
  exact ⟨engineInv_initEffect hs, count, ⟨rfl, fun i _ below => absurd below (Nat.not_lt_zero i)⟩, rfl⟩

/-! ## APPEND (R103, R110, R111) -/

section Append

variable {msg : List Octet} {s : State} {n : Nat}

/-- `Buffered` with the new octets, where they leave the block open. -/
theorem Buffered.append_within (hs : Buffered msg s) (h : s.fill.toNat + n < 192) :
    Buffered (msg ++ operandOctets s n) (appendEffect n s) := by
  obtain ⟨hfill, hbuf⟩ := hs
  have hlen : (msg ++ operandOctets s n).length = msg.length + n := by simp
  have hdiv : (msg.length + n) / 192 = msg.length / 192 := by omega
  have hmod : (msg.length + n) % 192 = msg.length % 192 + n := by omega
  rw [Buffered, hlen, hdiv, hmod, appendEffect_within_fill h, hfill]
  refine ⟨rfl, fun i hi below => ?_⟩
  rw [appendEffect_within_fillbuf h hi, blockAt_append_open _ _ hi, hfill]
  by_cases new : msg.length % 192 ≤ i
  · rw [if_pos ⟨new, below⟩, if_pos new, operandOctets_getD (by omega)]
  · rw [if_neg fun h => new h.1, if_neg new, hbuf i hi (by omega)]

/-- The block that the octets complete is the message's. -/
theorem Buffered.completedBlock_eq (hs : Buffered msg s) (hn : 192 ≤ s.fill.toNat + n) :
    completedBlock s = blockAt (msg ++ operandOctets s n) (msg.length / 192) := by
  obtain ⟨hfill, hbuf⟩ := hs
  refine Vector.ext fun i hi => ?_
  rw [completedBlock_getElem s hi, blockAt_append_open _ _ hi, hfill]
  split
  case isTrue => rw [operandOctets_getD (by omega)]
  case isFalse old => rw [hbuf i hi (by omega)]

/-- `Buffered` with the octets left over, where the new ones complete the block. -/
theorem Buffered.append_completing (hs : Buffered msg s) (h : 192 ≤ s.fill.toNat + n) (hn : n ≤ 192) :
    Buffered (msg ++ operandOctets s n) (appendEffect n s) := by
  have hfill := hs.1
  have bound : s.fill.toNat ≤ 191 := by omega
  have hlen : (msg ++ operandOctets s n).length = msg.length + n := by simp
  have hdiv : (msg.length + n) / 192 = msg.length / 192 + 1 := by omega
  have hmod : (msg.length + n) % 192 = msg.length % 192 + n - 192 := by omega
  rw [Buffered, hlen, hdiv, hmod, appendEffect_completing_fill bound h hn, hfill]
  refine ⟨rfl, fun i hi below => ?_⟩
  rw [appendEffect_completing_fillbuf bound h hn hi, blockAt_append_next _ _ hi, hfill, if_pos below,
    operandOctets_getD (by omega)]

theorem Tracks.append (hs : Tracks msg s) (absorbing : s.dstate = .absorb) (idle : s.cphase = .idle) (hn : n ≤ 192) :
    Tracks (msg ++ operandOctets s n) (appendEffect n s) := by
  obtain ⟨hinv, hcount, hbuf, hacc⟩ := (tracks_absorbing_idle_iff absorbing idle).mp hs
  have hinv' := engineInv_appendEffect hinv absorbing hn
  have absorbing' : (appendEffect n s).dstate = .absorb := (appendEffect_dstate n s).trans absorbing
  have hfill := hbuf.1
  have hlen : (msg ++ operandOctets s n).length = msg.length + n := by simp
  have hcount' : (appendEffect n s).bitCount = bitCountOf (msg ++ operandOctets s n) := by
    rw [appendEffect_bitCount (by omega), hcount, bitCountOf_append, operandOctets_length]
  have hacc' : (appendEffect n s).acc = chain Config.engine (msg ++ operandOctets s n) (msg.length / 192) := by
    rw [appendEffect_acc, hacc, chain_append _ (by omega)]
  by_cases within : s.fill.toNat + n < 192
  · have idle' : (appendEffect n s).cphase = .idle := by rw [appendEffect_within_frame within]; exact idle
    have hdiv : (msg.length + n) / 192 = msg.length / 192 := by omega
    rw [tracks_absorbing_idle_iff absorbing' idle', hlen, hdiv]
    exact ⟨hinv', hcount', hbuf.append_within within, hacc'⟩
  · have completes : 192 ≤ s.fill.toNat + n := not_lt.mp within
    have frame := appendEffect_completing_frame hinv.1 completes hn
    have run' : (appendEffect n s).cphase = .run := by rw [frame]
    have hdiv : (msg.length + n) / 192 - 1 = msg.length / 192 := by omega
    have started : Compressing (appendEffect n s) (adapter (completedBlock s)) := by
      rw [frame]
      exact ⟨rfl, rfl⟩
    rw [tracks_absorbing_run_iff absorbing' run', hlen, hdiv, ← hbuf.completedBlock_eq completes]
    exact ⟨hinv', hcount', hbuf.append_completing completes hn, by omega, hacc', started⟩

end Append

/-! ## FINALIZE (R106) -/

theorem Tracks.finalize {msg : List Octet} {s : State} (hs : Tracks msg s) (absorbing : s.dstate = .absorb)
    (idle : s.cphase = .idle) : Tracks msg (finalizeEffect s) := by
  obtain ⟨hinv, hcount, ⟨hfill, hbuf⟩, hacc⟩ := (tracks_absorbing_idle_iff absorbing idle).mp hs
  have hinv' := engineInv_finalizeEffect hinv
  by_cases empty : s.fill = 0
  · have whole : msg.length % 192 = 0 := by rw [← hfill, empty]; rfl
    rw [tracks_finPad_iff (by rw [finalizeEffect_of_empty empty])]
    refine ⟨hinv', (finalizeEffect_bitCount s).trans hcount, ?acc, ?block⟩
    case acc => rw [finalizeEffect_acc, hacc, dataChain_of_whole whole]
    case block =>
      rw [finalizeEffect_of_empty empty, paddingWords, ← hcount, bitCount_high, bitCount_low]
      exact ⟨rfl, rfl⟩
  · have broken : msg.length % 192 ≠ 0 := fun h => empty (BitVec.eq_of_toNat_eq (hfill.trans h))
    rw [tracks_finData_iff (by rw [finalizeEffect_of_partial empty])]
    refine ⟨hinv', (finalizeEffect_bitCount s).trans hcount, broken, (finalizeEffect_acc s).trans hacc, ?_⟩
    rw [finalizeEffect_of_partial empty, partialWords, ← zeroFill_congr hbuf, ← hfill]
    exact ⟨rfl, rfl⟩

/-! ## The engine's transitions (R107, R146, R150) -/

theorem Compressing.mixStep {s : State} {blk : BlockWords} (h : Compressing s blk) (hn : s.stepNo.toNat < 192) :
    Compressing (mixStep Config.engine ⟨s.stepNo.toNat, hn⟩ s) blk := by
  obtain ⟨hx, hw⟩ := h
  have next : (s.stepNo + 1).toNat = s.stepNo.toNat + 1 := by bv_omega
  refine ⟨hx, ?_⟩
  rw [mixStep_stepNo, mixStep_acc, next, mixSteps_succ hn, ← hw, ← hx]
  rfl

/-- At STEP 192 the feed-forward completes the compression function (R154). -/
theorem Compressing.sum {s : State} {blk : BlockWords} (h : Compressing s blk) (last : s.stepNo = 192) :
    addSix s.acc s.w = compress Config.engine s.acc blk := by
  obtain ⟨-, hw⟩ := h
  rw [hw, last]
  rfl

/-- A compression runs in ABSORB, FIN_DATA or FIN_PAD. -/
theorem EngineInv.running_cases {s : State} (hs : EngineInv s) (run : s.cphase = .run) :
    s.dstate = .absorb ∨ s.dstate = .finData ∨ s.dstate = .finPad := by
  obtain ⟨-, -, -, -, closed, -⟩ := hs
  rw [run] at closed
  cases hd : s.dstate <;> simp_all

theorem Tracks.mixStep {msg : List Octet} {s : State} (hs : Tracks msg s) (run : s.cphase = .run)
    (hn : s.stepNo.toNat < 192) : Tracks msg (mixStep Config.engine ⟨s.stepNo.toNat, hn⟩ s) := by
  have hinv' := engineInv_mix hs.engineInv run hn Config.engine
  rcases hs.engineInv.running_cases run with hd | hd | hd
  · obtain ⟨-, hcount, hbuf, long, hacc, mixing⟩ := (tracks_absorbing_run_iff hd run).mp hs
    rw [tracks_absorbing_run_iff ((mixStep_dstate ..).trans hd) ((mixStep_cphase ..).trans run)]
    exact ⟨hinv', hcount, hbuf, long, hacc, mixing.mixStep hn⟩
  · obtain ⟨-, hcount, broken, hacc, mixing⟩ := (tracks_finData_iff hd).mp hs
    rw [tracks_finData_iff ((mixStep_dstate ..).trans hd)]
    exact ⟨hinv', hcount, broken, hacc, mixing.mixStep hn⟩
  · obtain ⟨-, hcount, hacc, mixing⟩ := (tracks_finPad_iff hd).mp hs
    rw [tracks_finPad_iff ((mixStep_dstate ..).trans hd)]
    exact ⟨hinv', hcount, hacc, mixing.mixStep hn⟩

theorem Tracks.feedForward {msg : List Octet} {s : State} (hs : Tracks msg s) (run : s.cphase = .run)
    (last : s.stepNo = 192) : Tracks msg (feedForward s) := by
  have hinv' := engineInv_feedForward hs.engineInv
  rcases hs.engineInv.running_cases run with hd | hd | hd
  · obtain ⟨-, hcount, hbuf, long, hacc, mixing⟩ := (tracks_absorbing_run_iff hd run).mp hs
    have frame := feedForward_of_other (s := s) (by simp [hd]) (by simp [hd])
    have hbuf' : Buffered msg (Machine.feedForward s) := by rw [frame]; exact hbuf
    have hblocks : msg.length / 192 = msg.length / 192 - 1 + 1 := by omega
    have hsum : addSix s.acc s.w = chain Config.engine msg (msg.length / 192) := by
      rw [mixing.sum last, hacc, hblocks, chain_succ, Nat.add_sub_cancel]
    rw [tracks_absorbing_idle_iff (by rw [frame]; exact hd) (by rw [frame])]
    exact ⟨hinv', (feedForward_bitCount s).trans hcount, hbuf', (feedForward_acc s).trans hsum⟩
  · obtain ⟨-, hcount, broken, hacc, mixing⟩ := (tracks_finData_iff hd).mp hs
    have frame := feedForward_of_finData hd
    have hsum : addSix s.acc s.w = dataChain Config.engine msg := by
      rw [mixing.sum last, hacc, dataChain_of_partial broken, partialWords]
    have started : Compressing (Machine.feedForward s) (paddingWords msg) := by
      rw [frame, paddingWords, ← hcount, bitCount_high, bitCount_low]
      exact ⟨rfl, rfl⟩
    rw [tracks_finPad_iff (by rw [frame])]
    exact ⟨hinv', (feedForward_bitCount s).trans hcount, (feedForward_acc s).trans hsum, started⟩
  · obtain ⟨-, hcount, hacc, mixing⟩ := (tracks_finPad_iff hd).mp hs
    have hsum : addSix s.acc s.w = hash Config.engine msg := by
      rw [mixing.sum last, hacc, hash, paddingWords]
    rw [tracks_finalized_iff (by rw [feedForward_of_finPad hd])]
    exact ⟨hinv', (feedForward_bitCount s).trans hcount, (feedForward_acc s).trans hsum⟩

/-! ## The octets absorbed, followed through a step (R23) -/

theorem operandOctets_of_sameEngine {s t : State} (h : SameEngine s t) (n : Nat) :
    operandOctets t n = operandOctets s n := by
  have octet : operandOctet t = operandOctet s := funext fun k => by rw [operandOctet, operandOctet, h.data]
  rw [operandOctets, octet, operandOctets]

theorem messageAfter_of_init (msg : List Octet) {s : State} (h : acceptedCommand s = some .init) :
    messageAfter msg s = [] := by
  rw [messageAfter, h]

theorem messageAfter_of_append (msg : List Octet) {s : State} {n : BitVec 3}
    (h : acceptedCommand s = some (.append n)) (absorbing : s.dstate = .absorb) :
    messageAfter msg s = msg ++ operandOctets s n.toNat := by
  rw [messageAfter, h]
  exact if_pos absorbing

/-- The message stays unless the step accepts INIT, or an APPEND of at least one octet while a message is open. -/
theorem messageAfter_eq_self (msg : List Octet) {s : State} (noInit : acceptedCommand s ≠ some .init)
    (noOctets : ∀ n, acceptedCommand s = some (.append n) → n = 0 ∨ s.dstate ≠ .absorb) :
    messageAfter msg s = msg := by
  unfold messageAfter
  split
  case h_1 command => exact absurd command noInit
  case h_2 n command =>
    split
    case isTrue absorbing =>
      rw [(noOctets n command).resolve_right fun h => h absorbing]
      exact List.append_nil msg
    case isFalse => rfl
  case h_3 => rfl

theorem messageAfter_of_none (msg : List Octet) {s : State} (h : acceptedCommand s = none) :
    messageAfter msg s = msg :=
  messageAfter_eq_self msg (by simp [h]) (by simp [h])

/-! ## The obligation -/

/-- Settles O56: each effect of a step keeps `Tracks` at the message it leads to. -/
theorem stepTracksMessage : Obligations.StepTracksMessage := by
  intro msg s t hs hstep
  have hinv' : EngineInv t := stepKeepsInv s t hs.engineInv hstep
  cases stepEffect_of_step hstep with
  | reset => exact tracks_of_uninit hinv' rfl
  | same ht _ command =>
    have kept : messageAfter msg s = msg := messageAfter_eq_self msg
      (fun h => by rcases command _ h with h | h <;> cases h)
      (fun n h => by rcases command _ h with h | h <;> cases h; exact .inl rfl)
    rw [kept]
    exact hs.of_sameEngine ht
  | mix hu _ run hn =>
    rw [messageAfter_of_none msg (acceptedCommand_of_run run)]
    exact (hs.of_sameEngine hu).mixStep (hu.cphase.trans run) hn
  | feedForward hu _ run last =>
    rw [messageAfter_of_none msg (acceptedCommand_of_run run)]
    exact (hs.of_sameEngine hu).feedForward (hu.cphase.trans run) (hu.stepNo.trans last)
  | data hu _ _ command =>
    rw [messageAfter_of_none msg command]
    exact (hs.of_sameEngine hu).of_sameProgress (setData_sameProgress _ _) hinv'
  | error code hu _ command =>
    have kept : messageAfter msg s = msg := messageAfter_eq_self msg
      (fun h => by rcases (command _ h).2 with h | ⟨_, h⟩ <;> cases h)
      (fun n h => .inr (by rcases (command _ h).1 with hd | hd <;> simp [hd]))
    rw [kept]
    exact (hs.of_sameEngine hu).of_sameProgress (errorRecorded_sameProgress ..) hinv'
  | init hu idle command =>
    rw [messageAfter_of_init msg command]
    exact tracks_initEffect (hs.engineInv.of_sameEngine hu) (hu.cphase.trans idle)
  | append hu idle command _ h4 initialised unfinished =>
    have absorbing := hs.engineInv.absorb_of_idle idle initialised unfinished
    rw [messageAfter_of_append msg command absorbing, ← operandOctets_of_sameEngine hu]
    exact (hs.of_sameEngine hu).append (hu.dstate.trans absorbing) (hu.cphase.trans idle) (by omega)
  | finalize hu idle command initialised unfinished =>
    have absorbing := hs.engineInv.absorb_of_idle idle initialised unfinished
    rw [messageAfter_eq_self msg (by simp [command]) (by simp [command])]
    exact (hs.of_sameEngine hu).finalize (hu.dstate.trans absorbing) (hu.cphase.trans idle)
  | clrerr hu _ _ command =>
    rw [messageAfter_eq_self msg (by simp [command]) (by simp [command])]
    exact (hs.of_sameEngine hu).of_sameProgress (clearCmdError_sameProgress _) hinv'

end Sys2Proof.Machine
end

section
/-! PROOFS. The protocol of INIT, APPENDs and FINALIZE with waits between them computes H(M), however the message is
split (spec/40_commands.md R114, R116, spec/70_reset_and_hazards.md R233). -/

namespace Sys2Proof.Machine

/-! ## The wait (R233) -/

theorem engineTurn_sameErrors {p : EngineParams} {s t : State} (run : s.cphase = .run)
    (h : engineTurn p s = .next t) : SameErrors s t := by
  rcases engineTurn_cases run h with ⟨hn, rfl⟩ | ⟨-, rfl⟩
  · exact mixStep_sameErrors p _ s
  · exact feedForward_sameErrors s

theorem engineTurn_absorb {p : EngineParams} {s t : State} (run : s.cphase = .run) (hd : s.dstate = .absorb)
    (h : engineTurn p s = .next t) : t.dstate = .absorb := by
  rcases engineTurn_cases run h with ⟨hn, rfl⟩ | ⟨-, rfl⟩
  · exact hd
  · rw [feedForward_of_other (by simp [hd]) (by simp [hd])]
    exact hd

theorem Tracks.engineTurn {msg : List Octet} {s t : State} (hs : Tracks msg s) (run : s.cphase = .run)
    (h : engineTurn Config.engine s = .next t) : Tracks msg t := by
  rcases engineTurn_cases run h with ⟨hn, rfl⟩ | ⟨last, rfl⟩
  · exact hs.mixStep run hn
  · exact hs.feedForward run last

theorem EngineInv.stepBounded {s : State} (hs : EngineInv s) : StepBounded s := by
  obtain ⟨-, -, bound, -⟩ := hs
  exact bound

/-- `engineRun_induction` up to the end of the engine's work. -/
theorem settle_induction {P : State → Prop} (bound : ∀ s, P s → StepBounded s)
    (keeps : ∀ s t, P s → s.cphase = .run → engineTurn Config.engine s = .next t → P t) {s : State} (hs : P s) :
    ∃ t, settle s = .next t ∧ P t ∧ t.cphase = .idle := by
  obtain ⟨t, hrun, ht, work⟩ := engineRun_induction bound keeps hs le_rfl
  exact ⟨t, hrun, ht, idle_of_engineWork_eq_zero (bound t ht) (by omega)⟩

/-- A wait in ABSORB goes on with the message open. -/
theorem settle_of_absorb {msg : List Octet} {s : State} (hs : Tracks msg s) (hd : s.dstate = .absorb) :
    ∃ t, settle s = .next t ∧ (Tracks msg t ∧ SameErrors s t ∧ t.dstate = .absorb) ∧ t.cphase = .idle :=
  settle_induction (P := fun t => Tracks msg t ∧ SameErrors s t ∧ t.dstate = .absorb)
    (fun _ ⟨ht, _, _⟩ => ht.engineInv.stepBounded)
    (fun _ _ ⟨ht, herr, hd⟩ run turn =>
      ⟨ht.engineTurn run turn, herr.trans (engineTurn_sameErrors run turn), engineTurn_absorb run hd turn⟩)
    ⟨hs, SameErrors.refl s, hd⟩

/-- A wait after FINALIZE ends in FINALIZED. -/
theorem settle_of_finishing {msg : List Octet} {s : State} (hs : Tracks msg s) (hf : Finishing s) :
    ∃ t, settle s = .next t ∧ (Tracks msg t ∧ SameErrors s t ∧ Finishing t) ∧ t.cphase = .idle :=
  settle_induction (P := fun t => Tracks msg t ∧ SameErrors s t ∧ Finishing t)
    (fun _ ⟨ht, _, _⟩ => ht.engineInv.stepBounded)
    (fun _ _ ⟨ht, herr, hf⟩ run turn =>
      ⟨ht.engineTurn run turn, herr.trans (engineTurn_sameErrors run turn), hf.of_engineTurn run turn⟩)
    ⟨hs, SameErrors.refl s, hf⟩

/-! ## A message being fed (R89, R114) -/

/-- A message is open with the octets `msg` absorbed, and the engine is idle. -/
def Fed (msg : List Octet) (s : State) : Prop := Tracks msg s ∧ s.dstate = .absorb ∧ s.cphase = .idle

theorem fed_initEffect {s : State} (hs : EngineInv s) (idle : s.cphase = .idle) : Fed [] (initEffect s) :=
  ⟨tracks_initEffect hs idle, rfl, idle⟩

theorem chunkOctets_eq (c : Chunk) (s : State) : operandOctets (s.setData c.2) c.1.toNat = chunkOctets c := rfl

/-- The APPEND of a chunk, before the wait. -/
theorem exec_append_chunk {msg : List Octet} {s : State} {c : Chunk} (hs : Fed msg s) (hc : c.1.toNat ≤ 4) :
    ∃ t, exec (.append c.1) (s.setData c.2) = .next t ∧ Tracks (msg ++ chunkOctets c) t ∧ SameErrors s t ∧
      t.dstate = .absorb := by
  obtain ⟨htracks, absorbing, idle⟩ := hs
  have hdata : Tracks msg (s.setData c.2) :=
    htracks.of_sameProgress (setData_sameProgress s c.2) (engineInv_setData htracks.engineInv c.2)
  rw [← chunkOctets_eq c s]
  by_cases none : c.1.toNat = 0
  · have zero : c.1 = 0 := BitVec.eq_of_toNat_eq none
    have octets : msg ++ operandOctets (s.setData c.2) c.1.toNat = msg := by rw [none]; exact List.append_nil msg
    rw [octets, zero]
    exact ⟨_, exec_append_zero_of_idle idle, hdata, ⟨rfl, rfl, rfl⟩, absorbing⟩
  · exact ⟨_, exec_append_of_absorb idle absorbing (by omega) hc, hdata.append absorbing idle (by omega),
      appendEffect_sameErrors _ (s.setData c.2), (appendEffect_dstate ..).trans absorbing⟩

theorem feedChunk_fed {msg : List Octet} {s : State} {c : Chunk} (hs : Fed msg s) (hc : c.1.toNat ≤ 4) :
    ∃ t, feedChunk c s = .next t ∧ Fed (msg ++ chunkOctets c) t ∧ SameErrors s t := by
  obtain ⟨u, hexec, htracks, herr, absorbing⟩ := exec_append_chunk hs hc
  obtain ⟨t, hsettle, ⟨htracks', herr', absorbing'⟩, idle⟩ := settle_of_absorb htracks absorbing
  exact ⟨t, by rw [feedChunk, hexec, andThen_next, hsettle], ⟨htracks', absorbing', idle⟩, herr.trans herr'⟩

theorem feed_fed {cs : List Chunk} (hcs : ∀ c ∈ cs, c.1.toNat ≤ 4) {msg : List Octet} {s : State} (hs : Fed msg s) :
    ∃ t, feed cs s = .next t ∧ Fed (msg ++ cs.flatMap chunkOctets) t ∧ SameErrors s t := by
  induction cs generalizing msg s with
  | nil => exact ⟨s, rfl, by simpa using hs, SameErrors.refl s⟩
  | cons c cs ih =>
    obtain ⟨u, hchunk, hu, herr⟩ := feedChunk_fed hs (hcs c List.mem_cons_self)
    obtain ⟨t, hfeed, ht, herr'⟩ := ih (fun d hd => hcs d (List.mem_cons_of_mem c hd)) hu
    refine ⟨t, by rw [feed, hchunk, andThen_next, hfeed], ?_, herr.trans herr'⟩
    rw [List.flatMap_cons, ← List.append_assoc]
    exact ht

/-! ## The obligations -/

/-- Settles O57: the state tracks the octets fed so far, and in FINALIZED that says that ACC is their digest. -/
theorem protocolComputesHash : Obligations.ProtocolComputesHash := by
  intro s cs hs idle hcs
  obtain ⟨s2, hfeed, ⟨htracks, absorbing, idle2⟩, herr⟩ := feed_fed hcs (fed_initEffect hs idle)
  obtain ⟨t, hsettle, ⟨htracks', herr', finishing⟩, idle'⟩ :=
    settle_of_finishing (htracks.finalize absorbing idle2) (finishing_finalizeEffect s2)
  have finalized := finishing.finalized_of_idle idle'
  obtain ⟨-, -, digest⟩ := (tracks_finalized_iff finalized).mp htracks'
  have kept : SameErrors s t :=
    (initEffect_sameErrors s).trans (herr.trans ((finalizeEffect_sameErrors s2).trans herr'))
  refine ⟨t, ?_, finalized, idle', digest, kept⟩
  rw [hashMessage, exec_init_of_idle idle, andThen_next, hfeed, andThen_next,
    exec_finalize_of_absorb idle2 absorbing, andThen_next, hsettle]

/-- Settles O58: what `Fed` says of ACC, the counter, FILL and the buffered octets depends on the message alone. -/
theorem streamingEquivalence : Obligations.StreamingEquivalence := by
  intro s cs ds hs idle hcs hds same
  obtain ⟨t, hfeed, ⟨htracks, absorbing, idle'⟩, -⟩ := feed_fed hcs (fed_initEffect hs idle)
  obtain ⟨u, hfeed', ⟨htracks', absorbing', idle''⟩, -⟩ := feed_fed hds (fed_initEffect hs idle)
  rw [← same] at htracks'
  obtain ⟨-, hcount, ⟨hfill, hbuf⟩, hacc⟩ := (tracks_absorbing_idle_iff absorbing idle').mp htracks
  obtain ⟨-, hcount', ⟨hfill', hbuf'⟩, hacc'⟩ := (tracks_absorbing_idle_iff absorbing' idle'').mp htracks'
  refine ⟨_, t, u, exec_init_of_idle idle, hfeed, hfeed', hacc.trans hacc'.symm, hcount.trans hcount'.symm,
    BitVec.eq_of_toNat_eq (hfill.trans hfill'.symm), fun i hi below => ?_⟩
  rw [hfill] at below
  exact (hbuf i hi below).trans (hbuf' i hi below).symm

end Sys2Proof.Machine
end

section
/-! PROOFS. Fair runs: the engine becomes idle again, and a host that polls STATUS leaves its wait loop
(spec/00_scope.md R15, spec/41_compression.md R151, spec/70_reset_and_hazards.md R240, R242). -/

namespace Sys2Proof.Machine

/-! ## The engine's work under a step (R240) -/

theorem engineWork_of_sameEngine {s t : State} (h : SameEngine s t) : engineWork t = engineWork s := by
  rw [engineWork, engineWork, h.cphase, h.stepNo, h.dstate]

theorem step_of_turn_engine {s : State} (turn : nextTurn s = .engine) :
    step s = engineTurn Config.engine (takeTurn s) := by
  rw [step, turn]

/-- An enabled engine transition takes one from the work. -/
theorem engineWork_of_engineMoves {s t : State} (moves : EngineMoves s) (hstep : step s = .next t) :
    engineWork t + 1 = engineWork s := by
  obtain ⟨turn, ready⟩ := moves
  have taken := takeTurn_sameEngine s
  have run := (engineReady_iff.mp ready).1
  rw [step_of_turn_engine turn] at hstep
  rw [engineWork_of_engineTurn (taken.cphase.trans run) hstep, engineWork_of_sameEngine taken]

theorem errorRecorded_engineWork (c : ErrCode) (v : Word) (s : State) :
    engineWork (errorRecorded c v s) = engineWork s := by
  rw [errorRecorded_frame]
  rfl

/-- While a compression runs no step adds work: the commands that would are rejected. -/
theorem engineWork_le_of_run {s t : State} (run : s.cphase = .run) (hstep : step s = .next t) :
    engineWork t ≤ engineWork s := by
  cases stepEffect_of_step hstep with
  | reset => exact Nat.zero_le _
  | same ht => exact (engineWork_of_sameEngine ht).le
  | mix _ moves => exact Nat.le_of_succ_le (engineWork_of_engineMoves moves hstep).le
  | feedForward _ moves => exact Nat.le_of_succ_le (engineWork_of_engineMoves moves hstep).le
  | data hu => exact (engineWork_of_sameEngine hu).le
  | error code hu => exact ((errorRecorded_engineWork ..).trans (engineWork_of_sameEngine hu)).le
  | init _ idle => rw [run] at idle; cases idle
  | append _ idle => rw [run] at idle; cases idle
  | finalize _ idle => rw [run] at idle; cases idle
  | clrerr _ idle => rw [run] at idle; cases idle

/-! ## Fair runs (R15, R151) -/

theorem engineInv_of_isRun {σ : Nat → State} (hrun : IsRun σ) (hinv : EngineInv (σ 0)) (n : Nat) :
    EngineInv (σ n) := by
  induction n with
  | zero => exact hinv
  | succ n ih => exact stepKeepsInv _ _ ih (hrun n)

theorem run_of_not_idle {s : State} (h : s.cphase ≠ .idle) : s.cphase = .run := by
  cases hc : s.cphase with
  | idle => exact absurd hc h
  | run => rfl

theorem engineWork_antitone_of_run {σ : Nat → State} (hrun : IsRun σ) {n : Nat}
    (running : ∀ m, n ≤ m → (σ m).cphase = .run) {m : Nat} (hm : n ≤ m) : engineWork (σ m) ≤ engineWork (σ n) := by
  induction m, hm using Nat.le_induction with
  | base => exact le_rfl
  | succ m hm ih => exact (engineWork_le_of_run (running m hm) (hrun m)).trans ih

/-- Settles O59, by induction on the engine's work: an engine that never became idle would stay enabled, and then
fairness gives it a transition, which leaves less work. -/
theorem fairRunsBecomeIdle : Obligations.FairRunsBecomeIdle := by
  intro σ hrun hfair hinv n
  induction hw : engineWork (σ n) using Nat.strong_induction_on generalizing n with
  | _ w ih =>
    by_contra never
    have running : ∀ m, n ≤ m → (σ m).cphase = .run := fun m hm =>
      run_of_not_idle fun idle => never ⟨m, hm, idle⟩
    have ready : ∀ m, n ≤ m → engineReady (σ m) = true := fun m hm =>
      engineReady_iff.mpr ⟨running m hm, (engineInv_of_isRun hrun hinv m).stepBounded (running m hm)⟩
    obtain ⟨m, hm, moves⟩ := hfair n ready
    have less := engineWork_of_engineMoves moves (hrun m)
    have bound := engineWork_antitone_of_run hrun running hm
    obtain ⟨k, hk, idle⟩ := ih (engineWork (σ (m + 1))) (by omega) (m + 1) rfl
    exact never ⟨k, by omega, idle⟩

/-! ## The host in its wait loop (R89, R242) -/

/-- The host stands on one of the two lines of a wait loop: the read of STATUS at line `here`, or the branch back. -/
def InWaitLoop (here name : Nat) (s : State) : Prop :=
  s.hostProg[here]? = some (.read { off := 0x08, bytes := 4 } name) ∧
  s.hostProg[here + 1]? = some (.bnz name 0x1 here) ∧ (s.hostPc = here ∨ s.hostPc = here + 1)

/-- The host's part of the state that its lines read and write. -/
def SameProgram (s t : State) : Prop :=
  t.hostProg = s.hostProg ∧ t.hostPc = s.hostPc ∧ t.hostNames = s.hostNames

theorem takeTurn_sameProgram (s : State) : SameProgram s (takeTurn s) := by
  unfold takeTurn
  split
  · exact ⟨rfl, rfl, rfl⟩
  · split <;> exact ⟨rfl, rfl, rfl⟩

theorem engineTurn_sameProgram {p : EngineParams} {s t : State} (h : engineTurn p s = .next t) : SameProgram s t := by
  cases hc : s.cphase with
  | idle =>
    rw [engineTurn_of_idle p hc] at h
    cases h
    exact ⟨rfl, rfl, rfl⟩
  | run =>
    rcases engineTurn_cases hc h with ⟨hn, rfl⟩ | ⟨-, rfl⟩
    · exact ⟨rfl, rfl, rfl⟩
    · rw [feedForward_frame]
      exact ⟨rfl, rfl, rfl⟩

/-- A turn that is not the host's leaves the host where it is. -/
theorem sameProgram_of_step {s t : State} (other : nextTurn s ≠ .host) (hstep : step s = .next t) :
    SameProgram s t := by
  obtain ⟨prog, pc, names⟩ := takeTurn_sameProgram s
  cases turn : nextTurn s with
  | host => exact absurd turn other
  | engine =>
    rw [step_of_turn_engine turn] at hstep
    obtain ⟨prog', pc', names'⟩ := engineTurn_sameProgram hstep
    exact ⟨prog'.trans prog, pc'.trans pc, names'.trans names⟩
  | reset =>
    rw [step, turn] at hstep
    cases hstep
    exact ⟨prog, pc, names⟩

section Loop

variable {here name : Nat} {s t : State}

/-- The read of STATUS: the name holds it, and the host stands at the branch. -/
theorem step_of_waitLoop_read (hloop : InWaitLoop here name s) (turn : nextTurn s = .host) (hpc : s.hostPc = here)
    (hstep : step s = .next t) : SameEngine s t ∧ t.hostProg = s.hostProg ∧ t.hostPc = here + 1 ∧
      nameValue name t.hostNames = statusWord s := by
  obtain ⟨hread, -, -⟩ := hloop
  have op : nextHostOp s = some (.read { off := 4 * ((2 : Nat) : Int), bytes := 4 } name) := by
    rw [nextHostOp, hpc]
    exact hread
  rw [step_of_read_aligned (hostMoves_iff.mpr ⟨turn, rfl⟩) (by decide) op, hpc] at hstep
  cases hstep
  exact ⟨takeTurn_sameEngine s, (takeTurn_sameProgram s).1, rfl, nameValue_bindName ..⟩

/-- The branch: back to the read while bit 0 of the name is set, else out of the loop. -/
theorem step_of_waitLoop_branch (hloop : InWaitLoop here name s) (turn : nextTurn s = .host)
    (hpc : s.hostPc = here + 1) (hstep : step s = .next t) : SameEngine s t ∧ t.hostProg = s.hostProg ∧
      t.hostPc = if nameValue name s.hostNames &&& 0x1 ≠ 0 then here else here + 2 := by
  obtain ⟨-, hbranch, -⟩ := hloop
  have op : nextHostOp s = some (.bnz name 0x1 here) := by rw [nextHostOp, hpc, hbranch]
  rw [hostBranches s _ name here 0x1 (hostMoves_iff.mpr ⟨turn, rfl⟩) op, hpc] at hstep
  cases hstep
  exact ⟨takeTurn_sameEngine s, (takeTurn_sameProgram s).1, rfl⟩

/-- The host's turn in the loop leaves the engine alone, and the host in the loop or just behind it. -/
theorem step_of_waitLoop_host (hloop : InWaitLoop here name s) (turn : nextTurn s = .host)
    (hstep : step s = .next t) : SameEngine s t ∧ (InWaitLoop here name t ∨ t.hostPc = here + 2) := by
  obtain ⟨hread, hbranch, hpc | hpc⟩ := id hloop
  · obtain ⟨engine, prog, pc, -⟩ := step_of_waitLoop_read hloop turn hpc hstep
    exact ⟨engine, .inl ⟨prog ▸ hread, prog ▸ hbranch, .inr pc⟩⟩
  · obtain ⟨engine, prog, pc⟩ := step_of_waitLoop_branch hloop turn hpc hstep
    refine ⟨engine, ?_⟩
    split at pc
    case isTrue => exact .inl ⟨prog ▸ hread, prog ▸ hbranch, .inl pc⟩
    case isFalse => exact .inr pc

theorem InWaitLoop.of_sameProgram (hloop : InWaitLoop here name s) (h : SameProgram s t) : InWaitLoop here name t := by
  obtain ⟨prog, pc, -⟩ := h
  unfold InWaitLoop
  rw [prog, pc]
  exact hloop

/-- The host in the loop stays in it or goes on to the line behind it. -/
theorem InWaitLoop.step_cases (hloop : InWaitLoop here name s) (hstep : step s = .next t) :
    InWaitLoop here name t ∨ t.hostPc = here + 2 := by
  by_cases turn : nextTurn s = .host
  · exact (step_of_waitLoop_host hloop turn hstep).2
  · exact .inl (hloop.of_sameProgram (sameProgram_of_step turn hstep))

/-- A host in the loop adds no work to the engine, and an enabled engine transition takes one from it. -/
theorem InWaitLoop.engineWork_step (hloop : InWaitLoop here name s) (hstep : step s = .next t) :
    engineWork t + (if nextTurn s = .engine ∧ engineReady s = true then 1 else 0) ≤ engineWork s := by
  by_cases moves : nextTurn s = .engine ∧ engineReady s = true
  · rw [if_pos moves]
    exact (engineWork_of_engineMoves moves hstep).le
  rw [if_neg moves, Nat.add_zero]
  cases turn : nextTurn s with
  | host => exact (engineWork_of_sameEngine (step_of_waitLoop_host hloop turn hstep).1).le
  | reset =>
    rw [step, turn] at hstep
    cases hstep
    exact Nat.zero_le _
  | engine =>
    cases hc : s.cphase with
    | run => exact engineWork_le_of_run hc hstep
    | idle =>
      have taken := takeTurn_sameEngine s
      rw [step_of_turn_engine turn, engineTurn_of_idle _ (taken.cphase.trans hc)] at hstep
      cases hstep
      exact (engineWork_of_sameEngine taken).le

end Loop

/-- While BUSY is 0, STATUS has no common bit with the mask of the loop's branch (R36). -/
theorem statusWord_mask_of_idle {s : State} (idle : s.cphase = .idle) : statusWord s &&& 0x1 = 0 := by
  have busy : s.busy = false := by simp [State.busy, idle]
  have mask := BitVec.and_one_eq_setWidth_ofBool_getLsbD (x := statusWord s)
  rw [statusWord_busy, busy] at mask
  exact mask

/-! ## A run through the wait loop -/

section Run

variable {σ : Nat → State} {n here name : Nat}

/-- As long as the host is in the loop, the engine transitions are paid from the work there was. -/
theorem engineMoveCount_add_engineWork_le (hrun : IsRun σ) {k : Nat}
    (hloop : ∀ j, j < k → InWaitLoop here name (σ (n + j))) :
    engineMoveCount σ n k + engineWork (σ (n + k)) ≤ engineWork (σ n) := by
  induction k with
  | zero => simp [engineMoveCount]
  | succ k ih =>
    have before := ih fun j hj => hloop j (by omega)
    have now := (hloop k (by omega)).engineWork_step (hrun (n + k))
    rw [engineMoveCount, ← Nat.add_assoc n k 1]
    omega

/-- A host that goes on taking turns takes one from every point on, and what the other turns keep holds there. -/
theorem exists_host_turn {Q : State → Prop} (hrun : IsRun σ) (hhost : HostKeepsMoving σ)
    (keeps : ∀ s t, Q s → nextTurn s ≠ .host → step s = .next t → Q t) {m : Nat} (hm : Q (σ m)) :
    ∃ k, m ≤ k ∧ nextTurn (σ k) = .host ∧ Q (σ k) := by
  obtain ⟨k, hk, turn⟩ := hhost m
  induction hd : k - m using Nat.strong_induction_on generalizing m with
  | _ d ih =>
    by_cases now : nextTurn (σ m) = .host
    · exact ⟨m, le_rfl, now, hm⟩
    · have later : m ≠ k := by rintro rfl; exact now turn
      obtain ⟨j, hj, hturn, hQ⟩ := ih (k - (m + 1)) (by omega) (keeps _ _ hm now (hrun m)) (by omega) rfl
      exact ⟨j, by omega, hturn, hQ⟩

theorem InWaitLoop.idle_step {s t : State} (hloop : InWaitLoop here name s) (ht : EngineInv t)
    (idle : s.cphase = .idle) (hstep : step s = .next t) : t.cphase = .idle := by
  have work := hloop.engineWork_step hstep
  rw [engineWork_of_idle idle] at work
  exact idle_of_engineWork_eq_zero ht.stepBounded (by omega)

/-- With the engine idle from `m` on, a host that never left the loop would read STATUS at some point, and its next
turn would be a branch out of the loop. -/
theorem not_always_inWaitLoop_idle (hrun : IsRun σ) (hhost : HostKeepsMoving σ) {m : Nat}
    (hloop : ∀ k, m ≤ k → InWaitLoop here name (σ k)) (idle : ∀ k, m ≤ k → (σ k).cphase = .idle) : False := by
  have atLine : ∀ l k, (σ k).hostPc = l → ∃ j, k ≤ j ∧ nextTurn (σ j) = .host ∧ (σ j).hostPc = l := fun l k =>
    exists_host_turn (Q := fun s => s.hostPc = l) hrun hhost
      fun _ _ hQ turn hstep => (sameProgram_of_step turn hstep).2.1.trans hQ
  have reads : ∃ k, m ≤ k ∧ nextTurn (σ k) = .host ∧ (σ k).hostPc = here := by
    obtain ⟨-, -, hpc | hpc⟩ := hloop m le_rfl
    · exact atLine here m hpc
    · obtain ⟨k, hk, turn, hpc⟩ := atLine (here + 1) m hpc
      obtain ⟨-, -, hnext⟩ := step_of_waitLoop_branch (hloop k hk) turn hpc (hrun k)
      have back : (σ (k + 1)).hostPc = here := by
        obtain ⟨-, -, hpc'⟩ := hloop (k + 1) (by omega)
        split at hnext <;> omega
      obtain ⟨j, hj, turn', hpc'⟩ := atLine here (k + 1) back
      exact ⟨j, by omega, turn', hpc'⟩
  obtain ⟨k, hk, turn, hpc⟩ := reads
  obtain ⟨-, -, hpc', value⟩ := step_of_waitLoop_read (hloop k hk) turn hpc (hrun k)
  have masked : nameValue name (σ (k + 1)).hostNames &&& 0x1 = 0 := by
    rw [value, statusWord_mask_of_idle (idle k hk)]
  obtain ⟨j, hj, turn', hpc', masked'⟩ := exists_host_turn
    (Q := fun s => s.hostPc = here + 1 ∧ nameValue name s.hostNames &&& 0x1 = 0) hrun hhost
    (fun s t hQ turn hstep => by
      obtain ⟨-, pc, names⟩ := sameProgram_of_step turn hstep
      rw [pc, names]
      exact hQ) ⟨hpc', masked⟩
  obtain ⟨-, -, out⟩ := step_of_waitLoop_branch (hloop j (by omega)) turn' hpc' (hrun j)
  obtain ⟨-, -, inside⟩ := hloop (j + 1) (by omega)
  rw [if_neg (not_not.mpr masked')] at out
  omega

/-- In a fair run in which the host goes on, it does not stay in the loop for ever. -/
theorem exists_leaves_waitLoop (hrun : IsRun σ) (hfair : WeaklyFair σ) (hhost : HostKeepsMoving σ)
    (hinv : EngineInv (σ 0)) (hstart : InWaitLoop here name (σ n)) : ∃ k, (σ (n + k)).hostPc = here + 2 := by
  by_contra never
  have always : ∀ k, n ≤ k → InWaitLoop here name (σ k) := by
    intro k hk
    induction k, hk using Nat.le_induction with
    | base => exact hstart
    | succ k hk ih =>
      refine (ih.step_cases (hrun k)).resolve_right fun out => never ⟨k + 1 - n, ?_⟩
      rw [Nat.add_sub_cancel' (by omega)]
      exact out
  obtain ⟨m, hm, start⟩ := fairRunsBecomeIdle σ hrun hfair hinv n
  have idle : ∀ k, m ≤ k → (σ k).cphase = .idle := by
    intro k hk
    induction k, hk using Nat.le_induction with
    | base => exact start
    | succ k hk ih =>
      exact (always k (by omega)).idle_step (engineInv_of_isRun hrun hinv (k + 1)) ih (hrun k)
  exact not_always_inWaitLoop_idle hrun hhost (fun k hk => always k (by omega)) idle

/-- Up to the first point behind the loop the host is in it. -/
theorem inWaitLoop_before_exit (hrun : IsRun σ) (hstart : InWaitLoop here name (σ n)) {k : Nat}
    (first : ∀ j, j < k → (σ (n + j)).hostPc ≠ here + 2) : ∀ j, j < k → InWaitLoop here name (σ (n + j)) := by
  intro j hj
  induction j with
  | zero => exact hstart
  | succ j ih => exact ((ih (by omega)).step_cases (hrun (n + j))).resolve_right (first (j + 1) hj)

end Run

/-- Settles O60: at the first point behind the loop the transitions are paid from the work at the loop's start, which
is at most that of two compressions. -/
theorem waitLoopEnds : Obligations.WaitLoopEnds := by
  intro σ n here name hrun hfair hhost hinv hread hbranch hpc
  have hstart : InWaitLoop here name (σ n) := ⟨hread, hbranch, .inl hpc⟩
  have leaves := exists_leaves_waitLoop hrun hfair hhost hinv hstart
  refine ⟨Nat.find leaves, Nat.find_spec leaves, ?_⟩
  have paid := engineMoveCount_add_engineWork_le hrun
    (inWaitLoop_before_exit hrun hstart fun j hj => Nat.find_min leaves hj)
  have work := engineWork_le (σ n)
  omega

end Sys2Proof.Machine
end
